-- ==== Sys2Proof/Word.lean ====
section
/-! DEFINITION. The word types of the CORE: bytes, 16-bit words, 12-bit addresses and nibbles. -/

namespace Sys2Proof

/-- One byte: a general register, a memory byte, a timer, an immediate (R8, R21, R34). -/
abbrev Byte := BitVec 8

/-- A 16-bit word: the instruction word, the program counter, the index register, a call-stack entry (R8, R70). -/
abbrev Word := BitVec 16

/-- The 12-bit address field `nnn` of an instruction word (R71). -/
abbrev Addr := BitVec 12

/-- A nibble, "a 4-bit quantity; several operand fields are one nibble wide" (R15): a register index, a row count or
an ignored field. -/
abbrev Nibble := Fin 16

end Sys2Proof
end

