-- ==== Sys2Proof/Config.lean ====
section
/-! DEFINITION. The open parameters of the CORE as data (R9), and the one free value: the random byte (R181, R216).
The values the spec gives the parameters stand in Sys2Proof/Machine/Params.lean. -/

namespace Sys2Proof

/-- MEM_OOB_POLICY (R9, R53): what an access at or above address 4096 does. -/
inductive MemOobPolicy where
  /-- the access raises OutOfBoundsAccess -/
  | fault
  /-- the access goes to the address modulo 4096 -/
  | wrap
  deriving DecidableEq, Repr

/-- FB_EDGE_POLICY (R9, R172): what a set sprite bit that falls off the 64×32 screen does. -/
inductive FbEdgePolicy where
  /-- it raises OutOfBoundsAccess -/
  | fault
  /-- it is not drawn and cannot collide -/
  | clip
  /-- it is drawn at the column modulo 64 and the row modulo 32 -/
  | wrap
  deriving DecidableEq, Repr

/-- The five open parameters of R9, which "a model takes … as an argument". They are fixed for one machine. -/
structure Config where
  /-- MEM_OOB_POLICY -/
  memOob : MemOobPolicy
  /-- FB_EDGE_POLICY -/
  fbEdge : FbEdgePolicy
  /-- TICK_IN_STEP -/
  tickInStep : Bool
  /-- STRICT_DECODE -/
  strictDecode : Bool
  /-- FONT, the 80 bytes reset puts at 0x000-0x04F -/
  font : Vector Byte 80
  deriving DecidableEq, Repr

/-- FREE VALUE (log entry 3): the random byte the environment supplies with the k-th draw. It has no body: "a model must
not assume any value, sequence or distribution of it; a claim holds for every `rnd`" (R181, R216). -/
opaque Config.freeByte : Nat → Byte

end Sys2Proof
end

