-- ==== Sys2Proof/Machine/Params.lean ====
section
/-! DEFINITION. The values this spec gives the open parameters (R9, R36). -/

namespace Sys2Proof

/-- The standard glyph bytes, digits 0 to F, five rows each, top row first (R35, R36, log entry 6). -/
def standardFont : Vector Byte 80 :=
  ⟨#[0xF0, 0x90, 0x90, 0x90, 0xF0,  0x20, 0x60, 0x20, 0x20, 0x70,
     0xF0, 0x10, 0xF0, 0x80, 0xF0,  0xF0, 0x10, 0xF0, 0x10, 0xF0,
     0x90, 0x90, 0xF0, 0x10, 0x10,  0xF0, 0x80, 0xF0, 0x10, 0xF0,
     0xF0, 0x80, 0xF0, 0x90, 0xF0,  0xF0, 0x10, 0x20, 0x40, 0x40,
     0xF0, 0x90, 0xF0, 0x90, 0xF0,  0xF0, 0x90, 0xF0, 0x10, 0xF0,
     0xF0, 0x90, 0xF0, 0x90, 0x90,  0xE0, 0x90, 0xE0, 0x90, 0xE0,
     0xF0, 0x80, 0x80, 0x80, 0xF0,  0xE0, 0x90, 0x90, 0x90, 0xE0,
     0xF0, 0x80, 0xF0, 0x80, 0xF0,  0xF0, 0x80, 0xF0, 0x80, 0x80], rfl⟩

/-- The column "spec's value" of R9 (log entry 5). -/
def specConfig : Config where
  memOob := .fault
  fbEdge := .fault
  tickInStep := false
  strictDecode := false
  font := standardFont

end Sys2Proof
end

