-- ==== Sys2Proof/Syntax.lean ====
section
/-! DEFINITION. The 34 instructions, one constructor per row of spec/opcode_table.json (R76). -/

namespace Sys2Proof

/-- The instructions, in the order of R76. `x` and `y` are register numbers, `nn` the 8-bit immediate, `nnn` the 12-bit
address, `n` the row count (R12, R73). `ign` is the field of the word that the instruction's form does not read
(R81): it is kept so that the instruction determines its word, which the error latch records (R43); no meaning reads it
for anything else (DESIGN CHOICE, log entry 2). -/
inductive Instr where
  /-- `0?E0` clear-screen (R170); `ign` is bits 11:8. -/
  | cls (ign : Nibble)
  /-- `0?EE` return (R111); `ign` is bits 11:8. -/
  | ret (ign : Nibble)
  /-- `1nnn` jump (R112). -/
  | jp (nnn : Addr)
  /-- `2nnn` call (R113). -/
  | call (nnn : Addr)
  /-- `3xnn` skip-if-equal-immediate (R114). -/
  | seImm (x : Nibble) (nn : Byte)
  /-- `4xnn` skip-if-not-equal-immediate (R115). -/
  | sneImm (x : Nibble) (nn : Byte)
  /-- `5xyn` skip-if-registers-equal (R116); `ign` is the low nibble. -/
  | seReg (x y ign : Nibble)
  /-- `6xnn` set-immediate (R131). -/
  | ldImm (x : Nibble) (nn : Byte)
  /-- `7xnn` add-immediate (R132). -/
  | addImm (x : Nibble) (nn : Byte)
  /-- `8xy0` assign (R133). -/
  | ldReg (x y : Nibble)
  /-- `8xy1` or (R134). -/
  | orReg (x y : Nibble)
  /-- `8xy2` and (R135). -/
  | andReg (x y : Nibble)
  /-- `8xy3` xor (R136). -/
  | xorReg (x y : Nibble)
  /-- `8xy4` add (R137). -/
  | addReg (x y : Nibble)
  /-- `8xy5` subtract x−y (R138). -/
  | subReg (x y : Nibble)
  /-- `8xy6` shift-right (R139); `ign` is the field y. -/
  | shr (x ign : Nibble)
  /-- `8xy7` subtract y−x (R140). -/
  | subnReg (x y : Nibble)
  /-- `8xyE` shift-left (R141); `ign` is the field y. -/
  | shl (x ign : Nibble)
  /-- `9xyn` skip-if-registers-not-equal (R117); `ign` is the low nibble. -/
  | sneReg (x y ign : Nibble)
  /-- `Annn` set-index (R151). -/
  | ldI (nnn : Addr)
  /-- `Bnnn` jump-with-offset (R118). -/
  | jpV0 (nnn : Addr)
  /-- `Cxnn` random-and (R181). -/
  | rnd (x : Nibble) (nn : Byte)
  /-- `Dxyn` draw-sprite (R171). -/
  | drw (x y n : Nibble)
  /-- `Ex9E` skip-if-key-pressed (R182). -/
  | skp (x : Nibble)
  /-- `ExA1` skip-if-key-not-pressed (R183). -/
  | sknp (x : Nibble)
  /-- `Fx07` get-delay-timer (R184). -/
  | ldVxDt (x : Nibble)
  /-- `Fx0A` wait-for-key (R185). -/
  | ldVxK (x : Nibble)
  /-- `Fx15` set-delay-timer (R186). -/
  | ldDtVx (x : Nibble)
  /-- `Fx18` set-sound-timer (R187). -/
  | ldStVx (x : Nibble)
  /-- `Fx1E` add-to-index (R152). -/
  | addI (x : Nibble)
  /-- `Fx29` set-sprite-address (R153). -/
  | ldF (x : Nibble)
  /-- `Fx33` binary-coded-decimal (R154). -/
  | ldB (x : Nibble)
  /-- `Fx55` register-dump (R155). -/
  | ldMemVx (x : Nibble)
  /-- `Fx65` register-load (R156). -/
  | ldVxMem (x : Nibble)
  deriving DecidableEq, Repr

end Sys2Proof
end

