-- ==== Sys2Proof/WellFormed.lean ====
section
/-! DEFINITION. Which instructions the encoding admits under each value of STRICT_DECODE (R75, R81). -/

namespace Sys2Proof

/-- Whether the instruction can be the decoding of a word. Every operand field admits every value (R71, R81). Under
STRICT_DECODE = true the ignored bits 11:8 of CLS and RET and the ignored low nibble of SE_reg and SNE_reg must be 0; the
ignored field y of SHR and SHL is free under both values (R75, R76, R81). -/
def Instr.wellFormed (strict : Bool) : Instr → Bool
  | .cls ign => !strict || ign == 0
  | .ret ign => !strict || ign == 0
  | .jp _ => true
  | .call _ => true
  | .seImm _ _ => true
  | .sneImm _ _ => true
  | .seReg _ _ ign => !strict || ign == 0
  | .ldImm _ _ => true
  | .addImm _ _ => true
  | .ldReg _ _ => true
  | .orReg _ _ => true
  | .andReg _ _ => true
  | .xorReg _ _ => true
  | .addReg _ _ => true
  | .subReg _ _ => true
  | .shr _ _ => true
  | .subnReg _ _ => true
  | .shl _ _ => true
  | .sneReg _ _ ign => !strict || ign == 0
  | .ldI _ => true
  | .jpV0 _ => true
  | .rnd _ _ => true
  | .drw _ _ _ => true
  | .skp _ => true
  | .sknp _ => true
  | .ldVxDt _ => true
  | .ldVxK _ => true
  | .ldDtVx _ => true
  | .ldStVx _ => true
  | .addI _ => true
  | .ldF _ => true
  | .ldB _ => true
  | .ldMemVx _ => true
  | .ldVxMem _ => true

end Sys2Proof
end

