-- ==== Sys2Proof/Decode.lean ====
section
/-! DEFINITION. The decoder, total on every word and every byte string (R71, R82); after it the encoder, the opcode map of
R76 as rows of mask and match, and the decoder as the host's opcode table numbers its bits. -/

namespace Sys2Proof

/-- The word of two consecutive memory bytes: the byte at the lower address is bits 15:8 (R52). -/
def wordOfBytes (hi lo : Byte) : Word := hi ++ lo

/-- The two bytes of a word in the order memory holds them (R52). -/
def bytesOfWord (w : Word) : List Byte := [w.extractLsb' 8 8, w.extractLsb' 0 8]

/-- `op = w[15:12]` (R71). -/
def fieldOp (w : Word) : Nibble := Fin.ofNat 16 (w.toNat / 4096)

/-- `x = w[11:8]` (R71). -/
def fieldX (w : Word) : Nibble := Fin.ofNat 16 (w.toNat / 256)

/-- `y = w[7:4]` (R71). -/
def fieldY (w : Word) : Nibble := Fin.ofNat 16 (w.toNat / 16)

/-- `n = w[3:0]` (R71). -/
def fieldN (w : Word) : Nibble := Fin.ofNat 16 w.toNat

/-- `nn = w[7:0]` (R71). -/
def fieldNN (w : Word) : Byte := w.setWidth 8

/-- `nnn = w[11:0]` (R71). -/
def fieldNNN (w : Word) : Addr := w.setWidth 12

/-- Why the decoder rejects its input. -/
inductive DecodeError where
  /-- "a word that matches no row of rule R76 is unsupported" (R78): the decoder raises it; running it raises the
  error UnsupportedInstruction (R200). -/
  | unsupportedInstruction (w : Word)
  /-- fewer than the two bytes of an instruction word (R70); the decoder of byte strings raises it, and no fetch does. -/
  | truncated
  deriving DecidableEq, Repr

/-- The decode-and-dispatch function of R82; `strict` is STRICT_DECODE. -/
def decode (strict : Bool) (w : Word) : Except DecodeError Instr :=
  match fieldOp w with
  | 0x0 =>
    if strict && fieldX w != 0 then .error (.unsupportedInstruction w)
    else if fieldNN w = 0xE0 then .ok (.cls (fieldX w))
    else if fieldNN w = 0xEE then .ok (.ret (fieldX w))
    else .error (.unsupportedInstruction w)
  | 0x1 => .ok (.jp (fieldNNN w))
  | 0x2 => .ok (.call (fieldNNN w))
  | 0x3 => .ok (.seImm (fieldX w) (fieldNN w))
  | 0x4 => .ok (.sneImm (fieldX w) (fieldNN w))
  | 0x5 =>
    if strict && fieldN w != 0 then .error (.unsupportedInstruction w)
    else .ok (.seReg (fieldX w) (fieldY w) (fieldN w))
  | 0x6 => .ok (.ldImm (fieldX w) (fieldNN w))
  | 0x7 => .ok (.addImm (fieldX w) (fieldNN w))
  | 0x8 =>
    match fieldN w with
    | 0x0 => .ok (.ldReg (fieldX w) (fieldY w))
    | 0x1 => .ok (.orReg (fieldX w) (fieldY w))
    | 0x2 => .ok (.andReg (fieldX w) (fieldY w))
    | 0x3 => .ok (.xorReg (fieldX w) (fieldY w))
    | 0x4 => .ok (.addReg (fieldX w) (fieldY w))
    | 0x5 => .ok (.subReg (fieldX w) (fieldY w))
    | 0x6 => .ok (.shr (fieldX w) (fieldY w))
    | 0x7 => .ok (.subnReg (fieldX w) (fieldY w))
    | 0xE => .ok (.shl (fieldX w) (fieldY w))
    | _ => .error (.unsupportedInstruction w)
  | 0x9 =>
    if strict && fieldN w != 0 then .error (.unsupportedInstruction w)
    else .ok (.sneReg (fieldX w) (fieldY w) (fieldN w))
  | 0xA => .ok (.ldI (fieldNNN w))
  | 0xB => .ok (.jpV0 (fieldNNN w))
  | 0xC => .ok (.rnd (fieldX w) (fieldNN w))
  | 0xD => .ok (.drw (fieldX w) (fieldY w) (fieldN w))
  | 0xE =>
    if fieldNN w = 0x9E then .ok (.skp (fieldX w))
    else if fieldNN w = 0xA1 then .ok (.sknp (fieldX w))
    else .error (.unsupportedInstruction w)
  | 0xF =>
    if fieldNN w = 0x07 then .ok (.ldVxDt (fieldX w))
    else if fieldNN w = 0x0A then .ok (.ldVxK (fieldX w))
    else if fieldNN w = 0x15 then .ok (.ldDtVx (fieldX w))
    else if fieldNN w = 0x18 then .ok (.ldStVx (fieldX w))
    else if fieldNN w = 0x1E then .ok (.addI (fieldX w))
    else if fieldNN w = 0x29 then .ok (.ldF (fieldX w))
    else if fieldNN w = 0x33 then .ok (.ldB (fieldX w))
    else if fieldNN w = 0x55 then .ok (.ldMemVx (fieldX w))
    else if fieldNN w = 0x65 then .ok (.ldVxMem (fieldX w))
    else .error (.unsupportedInstruction w)
  | _ => .error (.unsupportedInstruction w)

/-- The decoder of byte strings: the first two bytes are the instruction word, high byte first (R52, R70). It answers the
instruction and the bytes after it. -/
def decodeBytes (strict : Bool) : List Byte → Except DecodeError (Instr × List Byte)
  | hi :: lo :: rest =>
    match decode strict (wordOfBytes hi lo) with
    | .ok i => .ok (i, rest)
    | .error e => .error e
  | _ => .error .truncated

/-- The word with the four nibbles given, bits 15:12 first (R72). -/
def packNibbles (op x y n : Nibble) : Word :=
  BitVec.ofNat 16 (op.val * 4096 + x.val * 256 + y.val * 16 + n.val)

/-- The word of form XNN or X: group, register, low byte (R72). -/
def packXNN (op x : Nibble) (nn : Byte) : Word :=
  BitVec.ofNat 16 (op.val * 4096 + x.val * 256 + nn.toNat)

/-- The word of form NNN: group, address (R72). -/
def packNNN (op : Nibble) (nnn : Addr) : Word :=
  BitVec.ofNat 16 (op.val * 4096 + nnn.toNat)

/-- The instruction word of an instruction, from the patterns of R76 and the formats of R72. -/
def encode : Instr → Word
  | .cls ign => packXNN 0x0 ign 0xE0
  | .ret ign => packXNN 0x0 ign 0xEE
  | .jp nnn => packNNN 0x1 nnn
  | .call nnn => packNNN 0x2 nnn
  | .seImm x nn => packXNN 0x3 x nn
  | .sneImm x nn => packXNN 0x4 x nn
  | .seReg x y ign => packNibbles 0x5 x y ign
  | .ldImm x nn => packXNN 0x6 x nn
  | .addImm x nn => packXNN 0x7 x nn
  | .ldReg x y => packNibbles 0x8 x y 0x0
  | .orReg x y => packNibbles 0x8 x y 0x1
  | .andReg x y => packNibbles 0x8 x y 0x2
  | .xorReg x y => packNibbles 0x8 x y 0x3
  | .addReg x y => packNibbles 0x8 x y 0x4
  | .subReg x y => packNibbles 0x8 x y 0x5
  | .shr x ign => packNibbles 0x8 x ign 0x6
  | .subnReg x y => packNibbles 0x8 x y 0x7
  | .shl x ign => packNibbles 0x8 x ign 0xE
  | .sneReg x y ign => packNibbles 0x9 x y ign
  | .ldI nnn => packNNN 0xA nnn
  | .jpV0 nnn => packNNN 0xB nnn
  | .rnd x nn => packXNN 0xC x nn
  | .drw x y n => packNibbles 0xD x y n
  | .skp x => packXNN 0xE x 0x9E
  | .sknp x => packXNN 0xE x 0xA1
  | .ldVxDt x => packXNN 0xF x 0x07
  | .ldVxK x => packXNN 0xF x 0x0A
  | .ldDtVx x => packXNN 0xF x 0x15
  | .ldStVx x => packXNN 0xF x 0x18
  | .addI x => packXNN 0xF x 0x1E
  | .ldF x => packXNN 0xF x 0x29
  | .ldB x => packXNN 0xF x 0x33
  | .ldMemVx x => packXNN 0xF x 0x55
  | .ldVxMem x => packXNN 0xF x 0x65

/-- One row of the opcode map R76: "a word w is the instruction when `w AND mask = match`", with the mask under each
value of STRICT_DECODE. -/
structure OpcodeRow where
  mnemonic : String
  mask : Word
  strictMask : Word
  bits : Word
  deriving DecidableEq, Repr

/-- The row's mask under a value of STRICT_DECODE (R76). -/
def OpcodeRow.maskFor (r : OpcodeRow) (strict : Bool) : Word :=
  if strict then r.strictMask else r.mask

/-- Whether the word is one of the row's words (R76). -/
def OpcodeRow.selects (r : OpcodeRow) (strict : Bool) (w : Word) : Bool :=
  w &&& r.maskFor strict == r.bits

/-- The row of R76 an instruction belongs to. -/
def Instr.row : Instr → OpcodeRow
  | .cls _ => ⟨"CLS", 0xF0FF, 0xFFFF, 0x00E0⟩
  | .ret _ => ⟨"RET", 0xF0FF, 0xFFFF, 0x00EE⟩
  | .jp _ => ⟨"JP", 0xF000, 0xF000, 0x1000⟩
  | .call _ => ⟨"CALL", 0xF000, 0xF000, 0x2000⟩
  | .seImm _ _ => ⟨"SE_imm", 0xF000, 0xF000, 0x3000⟩
  | .sneImm _ _ => ⟨"SNE_imm", 0xF000, 0xF000, 0x4000⟩
  | .seReg _ _ _ => ⟨"SE_reg", 0xF000, 0xF00F, 0x5000⟩
  | .ldImm _ _ => ⟨"LD_imm", 0xF000, 0xF000, 0x6000⟩
  | .addImm _ _ => ⟨"ADD_imm", 0xF000, 0xF000, 0x7000⟩
  | .ldReg _ _ => ⟨"LD_reg", 0xF00F, 0xF00F, 0x8000⟩
  | .orReg _ _ => ⟨"OR", 0xF00F, 0xF00F, 0x8001⟩
  | .andReg _ _ => ⟨"AND", 0xF00F, 0xF00F, 0x8002⟩
  | .xorReg _ _ => ⟨"XOR", 0xF00F, 0xF00F, 0x8003⟩
  | .addReg _ _ => ⟨"ADD", 0xF00F, 0xF00F, 0x8004⟩
  | .subReg _ _ => ⟨"SUB", 0xF00F, 0xF00F, 0x8005⟩
  | .shr _ _ => ⟨"SHR", 0xF00F, 0xF00F, 0x8006⟩
  | .subnReg _ _ => ⟨"SUBN", 0xF00F, 0xF00F, 0x8007⟩
  | .shl _ _ => ⟨"SHL", 0xF00F, 0xF00F, 0x800E⟩
  | .sneReg _ _ _ => ⟨"SNE_reg", 0xF000, 0xF00F, 0x9000⟩
  | .ldI _ => ⟨"LD_I", 0xF000, 0xF000, 0xA000⟩
  | .jpV0 _ => ⟨"JP_V0", 0xF000, 0xF000, 0xB000⟩
  | .rnd _ _ => ⟨"RND", 0xF000, 0xF000, 0xC000⟩
  | .drw _ _ _ => ⟨"DRW", 0xF000, 0xF000, 0xD000⟩
  | .skp _ => ⟨"SKP", 0xF0FF, 0xF0FF, 0xE09E⟩
  | .sknp _ => ⟨"SKNP", 0xF0FF, 0xF0FF, 0xE0A1⟩
  | .ldVxDt _ => ⟨"LD_Vx_DT", 0xF0FF, 0xF0FF, 0xF007⟩
  | .ldVxK _ => ⟨"LD_Vx_K", 0xF0FF, 0xF0FF, 0xF00A⟩
  | .ldDtVx _ => ⟨"LD_DT_Vx", 0xF0FF, 0xF0FF, 0xF015⟩
  | .ldStVx _ => ⟨"LD_ST_Vx", 0xF0FF, 0xF0FF, 0xF018⟩
  | .addI _ => ⟨"ADD_I", 0xF0FF, 0xF0FF, 0xF01E⟩
  | .ldF _ => ⟨"LD_F", 0xF0FF, 0xF0FF, 0xF029⟩
  | .ldB _ => ⟨"LD_B", 0xF0FF, 0xF0FF, 0xF033⟩
  | .ldMemVx _ => ⟨"LD_mem_Vx", 0xF0FF, 0xF0FF, 0xF055⟩
  | .ldVxMem _ => ⟨"LD_Vx_mem", 0xF0FF, 0xF0FF, 0xF065⟩

/-- The 34 rows of R76, in its order. -/
def opcodeRows : List OpcodeRow :=
  [Instr.cls 0, .ret 0, .jp 0, .call 0, .seImm 0 0, .sneImm 0 0, .seReg 0 0 0, .ldImm 0 0, .addImm 0 0,
   .ldReg 0 0, .orReg 0 0, .andReg 0 0, .xorReg 0 0, .addReg 0 0, .subReg 0 0, .shr 0 0, .subnReg 0 0,
   .shl 0 0, .sneReg 0 0 0, .ldI 0, .jpV0 0, .rnd 0 0, .drw 0 0 0, .skp 0, .sknp 0, .ldVxDt 0, .ldVxK 0,
   .ldDtVx 0, .ldStVx 0, .addI 0, .ldF 0, .ldB 0, .ldMemVx 0, .ldVxMem 0].map Instr.row

/-- The instruction the decoder reads from a word numbered as spec/opcode_table.json numbers it (bit 0 the least
significant), laid out as memory holds it (R52) under the spec's value of STRICT_DECODE. -/
def decodeTableWord (nbits w : Nat) : Option Instr :=
  match decodeBytes specConfig.strictDecode (bytesOfWord (BitVec.ofNat 16 (w % 2 ^ nbits))) with
  | .ok (i, _) => some i
  | .error _ => none

end Sys2Proof
end

