-- ==== Sys2Proof/Machine/State.lean ====
section
/-! DEFINITION. The state of the CORE as plain data (R20), the error latch's types (R200, R201), the reasons a step can
stop, and the state after reset (R44). -/

namespace Sys2Proof.Machine

/-- The run state (R42). -/
inductive RunState where
  | running
  | halted
  deriving DecidableEq, Repr

/-- The error kinds; "the CORE reports these error kinds and no others" (R200). -/
inductive ErrKind where
  | unsupportedInstruction
  | callStackOverflow
  | callStackUnderflow
  | outOfBoundsAccess
  | programLoadError
  deriving DecidableEq, Repr

/-- The kind-specific value the error latch records (R201). Indices and addresses are the exact, unbounded ones. -/
inductive ErrInfo where
  /-- UnsupportedInstruction: none -/
  | noInfo
  /-- CallStackOverflow and CallStackUnderflow: the SP value -/
  | stackPointer (sp : Nat)
  /-- OutOfBoundsAccess, space fetch: the pc -/
  | fetchAt (pc : Nat)
  /-- OutOfBoundsAccess, space memory: the byte address -/
  | memoryAt (a : Nat)
  /-- OutOfBoundsAccess, space framebuffer: (px, py) -/
  | framebufferAt (px py : Nat)
  /-- OutOfBoundsAccess, space keys: the key number -/
  | keyAt (k : Nat)
  /-- ProgramLoadError: the image length in bytes -/
  | imageLength (n : Nat)
  deriving DecidableEq, Repr

/-- The record `(kind, pc, word, info)` of the error latch (R43). -/
structure ErrRecord where
  kind : ErrKind
  /-- the address of the failing instruction -/
  pc : Word
  /-- its word; none when the fetch itself failed -/
  word : Option Word
  info : ErrInfo
  deriving DecidableEq, Repr

/-- Memory as the list of the bytes that differ from the contents after reset, in the canonical form of Memory.wf. -/
abbrev Memory := List Host.Cell

/-- The framebuffer as the list of the cells that are not 0, in the canonical form of Framebuffer.wf. The key of a cell
is its index `px + py*64` (R37). -/
abbrev Framebuffer := List Host.Cell

/-- The state of the CORE: the aggregate of R20, and after it three fields of the model's own (log entries 3 and 5). -/
structure State where
  /-- `MEM[0..4095]` (R34) -/
  mem : Memory
  /-- `V[0..15]` (R21); `V[15]` is the flag register VF (R22) -/
  v : Vector Byte 16
  /-- the index register `I` (R29) -/
  i : Word
  /-- the program counter (R25) -/
  pc : Word
  /-- `STACK[0..15]` (R30) -/
  stack : Vector Word 16
  /-- the stack pointer, 0 to 16 (R31) -/
  sp : Fin 17
  /-- `FB[0..2047]` (R37) -/
  fb : Framebuffer
  /-- the delay timer (R32) -/
  dt : Byte
  /-- the sound timer (R33) -/
  st : Byte
  /-- `KEY[0..15]`, true = pressed (R38) -/
  key : Vector Bool 16
  /-- `RUN` (R42) -/
  run : RunState
  /-- `ERR`, the error latch (R43) -/
  err : Option ErrRecord
  /-- MODEL'S OWN: random bytes the host has supplied and no draw has taken yet, the next one first (R45 `rnd`). -/
  rndIn : List Byte
  /-- MODEL'S OWN: how many draws have taken the free value Config.freeByte because `rndIn` was empty. -/
  rndDraws : Nat
  /-- MODEL'S OWN: the parameters of R9, fixed for the machine. -/
  cfg : Config
  deriving DecidableEq, Repr

/-- The reasons the machine can stop with a fault. There are none: every error of the spec has an entry the spec
describes (R204: RUN becomes Halted and ERR holds the record), and the model takes it as a next state. -/
inductive Fault
  deriving DecidableEq, Repr

/-- The reasons an instruction can have no meaning. -/
inductive Refusal where
  /-- raised by exec for an instruction with no meaning yet, under the mnemonic of spec/opcode_table.json; no arm of
  exec raises it in this model. Safe: a run stops where the hardware goes on. -/
  | notModelled (mnemonic : String)
  deriving DecidableEq, Repr

/-- The state right after `reset` with an empty image (R44, R230, R234): memory holds the font and zeros, which is what
an unlisted address reads as. -/
def State.reset : State where
  mem := []
  v := Vector.replicate 16 0
  i := 0
  pc := 0x200
  stack := Vector.replicate 16 0
  sp := 0
  fb := []
  dt := 0
  st := 0
  key := Vector.replicate 16 false
  run := .running
  err := none
  rndIn := []
  rndDraws := 0
  cfg := specConfig

end Sys2Proof.Machine
end

