-- ==== Sys2Proof/Machine/Ops.lean ====
section
/-! DEFINITION. The named operations over memory, registers, the call stack, the framebuffer, the keys, the timers and
the random input, and raising an error. Every meaning is written over them. -/

namespace Sys2Proof.Machine

/-! ## Cells: bytes by address, in one canonical form -/

/-- The byte at `a`: the listed one, else what an unlisted address reads as. -/
def Cells.read (bg : Nat → Byte) : List Host.Cell → Nat → Byte
  | [], a => bg a
  | c :: m, a => if c.1 = a then c.2 else Cells.read bg m a

/-- Lists `v` at `a` before the first larger address. -/
def Cells.insert (a : Nat) (v : Byte) : List Host.Cell → List Host.Cell
  | [] => [(a, v)]
  | c :: m => if a < c.1 then (a, v) :: c :: m else c :: Cells.insert a v m

/-- Sets the byte at `a`. Writing what an unlisted address reads as removes the entry, so equal contents are equal
lists. -/
def Cells.write (bg : Nat → Byte) (m : List Host.Cell) (a : Nat) (v : Byte) : List Host.Cell :=
  let rest := m.filter fun c => c.1 != a
  if v = bg a then rest else Cells.insert a v rest

/-- The canonical form: addresses strictly rising and below `size`, no entry equal to what an unlisted address reads
as. -/
abbrev Cells.wf (bg : Nat → Byte) (size : Nat) (m : List Host.Cell) : Prop :=
  m.Pairwise (fun c d => c.1 < d.1) ∧ ∀ c ∈ m, c.1 < size ∧ c.2 ≠ bg c.1

/-- What an unlisted memory address reads as: the contents after reset, the font at 0x000-0x04F and zero elsewhere
(R44, R58, log entry 4). -/
def Memory.background (font : Vector Byte 80) (a : Nat) : Byte :=
  if h : a < 80 then font[a] else 0

/-- The canonical form of memory, whose addresses are 0x000 to 0xFFF (R34, R50). -/
abbrev Memory.wf (font : Vector Byte 80) (m : Memory) : Prop :=
  Cells.wf (Memory.background font) 4096 m

/-- The canonical form of the framebuffer: 2048 cells, "every cell holds 0 or 1" (R37), the ones listed. -/
abbrev Framebuffer.wf (f : Framebuffer) : Prop :=
  Cells.wf (fun _ => 0) 2048 f ∧ ∀ c ∈ f, c.2 = 1

/-! ## Memory -/

/-- Whether an access to the exact address `a` is out of bounds: under MEM_OOB_POLICY = fault when `a ≥ 4096`, under
wrap never (R53). -/
def State.outOfBounds (s : State) (a : Nat) : Bool :=
  match s.cfg.memOob with
  | .fault => decide (4096 ≤ a)
  | .wrap => false

/-- The first address of a list that is out of bounds, in the order the list gives (R53, R150, R203). -/
def State.firstOutOfBounds (s : State) (as : List Nat) : Option Nat := as.find? s.outOfBounds

/-- `MEM[a mod 4096]`, for an access that is not out of bounds (R53, R90). -/
def State.memRead (s : State) (a : Nat) : Byte :=
  Cells.read (Memory.background s.cfg.font) s.mem (a % 4096)

/-- `MEM[a mod 4096] <- b`, for an access that is not out of bounds (R53). -/
def State.memWrite (s : State) (a : Nat) (b : Byte) : State :=
  { s with mem := Cells.write (Memory.background s.cfg.font) s.mem (a % 4096) b }

/-- Writes the bytes in order at `a`, `a + 1`, … (R51: each a one-byte access). -/
def State.storeBytes (s : State) (a : Nat) : List Byte → State
  | [] => s
  | b :: bs => (s.memWrite a b).storeBytes (a + 1) bs

/-! ## Registers -/

/-- `V[x]` (R21). -/
def State.reg (s : State) (x : Nibble) : Byte := s.v[x]

/-- `V[x] <- b` (R21). -/
def State.setReg (s : State) (x : Nibble) (b : Byte) : State := { s with v := s.v.set x b }

/-- `V[F] <- b`, the flag register (R22). -/
def State.setFlag (s : State) (b : Byte) : State := s.setReg 15 b

/-- `I <- w` (R29). -/
def State.setIndex (s : State) (w : Word) : State := { s with i := w }

/-- `pc <- w` (R25). -/
def State.setPc (s : State) (w : Word) : State := { s with pc := w }

/-- `pc <- p + 2` modulo 2^16: the next instruction (R26, R94). -/
def State.nextInstr (s : State) : State := s.setPc (s.pc + 2)

/-- `pc <- p + 4` modulo 2^16: skip the next instruction (R110). -/
def State.skipInstr (s : State) : State := s.setPc (s.pc + 4)

/-- Skip if the condition holds, else go on (R26, R110). -/
def State.skipIf (s : State) (c : Bool) : State := if c then s.skipInstr else s.nextInstr

/-! ## Call stack -/

/-- Pushes `w`: `STACK[SP] <- w; SP <- SP + 1`; none when `SP = 16` (R31, R113). -/
def State.push (s : State) (w : Word) : Option State :=
  if h : s.sp.val < 16 then
    some { s with stack := s.stack.set s.sp.val w, sp := ⟨s.sp.val + 1, by omega⟩ }
  else none

/-- Pops: `SP <- SP - 1`, then the value of `STACK[SP]`, which the entry keeps (R31, R111); none when `SP = 0`. -/
def State.pop (s : State) : Option (Word × State) :=
  if h : 0 < s.sp.val then
    some (s.stack[s.sp.val - 1], { s with sp := ⟨s.sp.val - 1, by omega⟩ })
  else none

/-! ## Framebuffer -/

/-- `FB[k]` (R37). -/
def Framebuffer.cell (f : Framebuffer) (k : Nat) : Byte := Cells.read (fun _ => 0) f k

/-- `FB[k] <- FB[k] XOR 1` (R171). -/
def Framebuffer.flip (f : Framebuffer) (k : Nat) : Framebuffer :=
  Cells.write (fun _ => 0) f k (f.cell k ^^^ 1)

/-- Replaces the framebuffer. -/
def State.setFb (s : State) (f : Framebuffer) : State := { s with fb := f }

/-- Where a set sprite bit at an exact column and row goes. -/
inductive Placement where
  /-- it falls on the cell with this index -/
  | cell (k : Nat)
  /-- it is not drawn -/
  | clipped
  /-- it is an out-of-bounds access -/
  | outside
  deriving DecidableEq, Repr

/-- The placement of a set bit at column `px` and row `py` under FB_EDGE_POLICY (R171, R172). -/
def placePixel (edge : FbEdgePolicy) (px py : Nat) : Placement :=
  if px < 64 ∧ py < 32 then .cell (px + py * 64)
  else
    match edge with
    | .fault => .outside
    | .clip => .clipped
    | .wrap => .cell (px % 64 + py % 32 * 64)

/-- XORs one set sprite bit into the framebuffer; the Bool is the collision so far (R171). -/
def drawPixel (edge : FbEdgePolicy) (px py : Nat) (acc : Framebuffer × Bool) :
    Except ErrInfo (Framebuffer × Bool) :=
  match placePixel edge px py with
  | .cell k => .ok (acc.1.flip k, acc.2 || acc.1.cell k == 1)
  | .clipped => .ok acc
  | .outside => .error (.framebufferAt px py)

/-- Draws the columns `cs` of one sprite row with its left edge at column `cx`: bit 7 of the row byte is column 0
(R171, R174). -/
def drawBits (edge : FbEdgePolicy) (row : Byte) (cx py : Nat) :
    List Nat → Framebuffer × Bool → Except ErrInfo (Framebuffer × Bool)
  | [], acc => .ok acc
  | c :: cs, acc =>
    if row.getLsbD (7 - c) then
      match drawPixel edge (cx + c) py acc with
      | .ok acc' => drawBits edge row cx py cs acc'
      | .error e => .error e
    else drawBits edge row cx py cs acc

/-- Draws the rows `rs` of the sprite at `I` at screen position (`cx`, `cy`), the memory check of a row before its
bits (R171, R203). -/
def State.drawRows (s : State) (cx cy : Nat) :
    List Nat → Framebuffer × Bool → Except ErrInfo (Framebuffer × Bool)
  | [], acc => .ok acc
  | r :: rs, acc =>
    if s.outOfBounds (s.i.toNat + r) then .error (.memoryAt (s.i.toNat + r))
    else
      match drawBits s.cfg.fbEdge (s.memRead (s.i.toNat + r)) cx (cy + r) (List.range 8) acc with
      | .ok acc' => s.drawRows cx cy rs acc'
      | .error e => .error e

/-! ## Keys -/

/-- `KEY[k] == 1`, for k in 0..15 (R38). -/
def State.keyPressed (s : State) (k : Nat) : Bool := if h : k < 16 then s.key[k] else false

/-- The least pressed key, if any (R185). -/
def State.firstKey (s : State) : Option Nat := (List.range 16).find? s.keyPressed

/-- Replaces the key table: `KEY[i] <- k[i]` (R45). -/
def State.setKeys (s : State) (k : Word) : State := { s with key := Vector.ofFn fun j => k.getLsbD j.val }

/-! ## Timers and the random input -/

/-- `DT <- b` (R32). -/
def State.setDt (s : State) (b : Byte) : State := { s with dt := b }

/-- `ST <- b` (R33). -/
def State.setSt (s : State) (b : Byte) : State := { s with st := b }

/-- One step of a countdown: down by 1 if nonzero, 0 stays 0 (R211, R212). -/
def countDown (b : Byte) : Byte := if b = 0 then 0 else b - 1

/-- The state `tick_body` leaves (R210). -/
def State.tickBody (s : State) : State := { s with dt := countDown s.dt, st := countDown s.st }

/-- Whether `tick_body` emits the beep event: ST was 1 before the decrement (R210, R212). -/
def State.beeps (s : State) : Bool := s.st == 1

/-- The random byte of this step: the next one the host supplied, else the free value (R181, R216). -/
def State.rnd (s : State) : Byte :=
  match s.rndIn with
  | b :: _ => b
  | [] => Config.freeByte s.rndDraws

/-- Takes the random byte, so that the next draw is another one. -/
def State.takeRnd (s : State) : State :=
  match s.rndIn with
  | _ :: bs => { s with rndIn := bs }
  | [] => { s with rndDraws := s.rndDraws + 1 }

/-! ## Raising an error -/

/-- Raises an error (R13, R97, R204): every change of the step is discarded, so this is applied to the state before the
step; `RUN <- Halted`, `ERR <- (kind, pc, word, info)` with pc the failing instruction's address, and nothing else
changes. There is no return from an error (R205); only reset leaves Halted (R206). -/
def State.raise (s : State) (kind : ErrKind) (word : Option Word) (info : ErrInfo) : State :=
  { s with run := .halted, err := some ⟨kind, s.pc, word, info⟩ }

end Sys2Proof.Machine
end

