-- ==== Sys2Proof/Machine/Cycle.lean ====
section
/-! DEFINITION. The parts of one cycle around the instruction: fetch, decode, and the timer tick (R90). -/

namespace Sys2Proof.Machine

/-- Fetching (R92): the bounds check of both bytes (R55), then `{MEM[p mod 4096], MEM[(p + 1) mod 4096]}` (R52). The
error is the state OutOfBoundsAccess(fetch) leaves, with no word. -/
def State.fetch (s : State) : Except State Word :=
  if s.outOfBounds (s.pc.toNat + 1) then
    .error (s.raise .outOfBoundsAccess none (.fetchAt s.pc.toNat))
  else .ok (wordOfBytes (s.memRead s.pc.toNat) (s.memRead (s.pc.toNat + 1)))

/-- Decoding the fetched word (R93). The error is the state UnsupportedInstruction leaves, with the word (R78, R201). -/
def State.decodeWord (s : State) (w : Word) : Except State Instr :=
  match decode s.cfg.strictDecode w with
  | .ok i => .ok i
  | .error _ => .error (s.raise .unsupportedInstruction (some w) .noInfo)

/-- Fetch, then decode (R90, R98): the instruction to execute, or the halted state. -/
def State.fetchDecode (s : State) : Except State Instr :=
  match s.fetch with
  | .ok w => s.decodeWord w
  | .error t => .error t

/-- Whether the step whose instruction left `s` ends with a tick: TICK_IN_STEP, and no error was raised (R95). -/
def State.ticksInStep (s : State) : Bool := s.cfg.tickInStep && s.run == .running

/-- The Timer-Tick phase of a step (R95). -/
def State.timerTick (s : State) : State := if s.ticksInStep then s.tickBody else s

/-- Ends the cycle: the tick after the instruction (R90, R95). -/
def finishCycle : Host.Outcome State Fault Refusal → Host.Outcome State Fault Refusal
  | .next s => .next s.timerTick
  | .fault r => .fault r
  | .refused r => .refused r

/-- The two bytes of a word stored where the next fetch reads them (R52). -/
def State.placeWord (s : State) (w : Word) : State := s.storeBytes s.pc.toNat (bytesOfWord w)

end Sys2Proof.Machine
end

