-- ==== Sys2Proof/Machine/Flags.lean ====
section
/-! DEFINITION. Every flag computation of the spec (R28): the value VF receives. -/

namespace Sys2Proof.Machine

/-- The byte VF receives: 1 when the condition holds, else 0 (R28). -/
def flagByte (c : Bool) : Byte := if c then 1 else 0

/-- Carry of `a + b`: 1 iff the exact sum is at least 256 (R137). -/
def carryAdd (a b : Byte) : Byte := flagByte (decide (256 ≤ a.toNat + b.toNat))

/-- Borrow of `a - b`: 1 iff `a < b` (R138, R140). -/
def borrowSub (a b : Byte) : Byte := flagByte (decide (a.toNat < b.toNat))

/-- The bit a right shift shifts out: `a[0]` (R139). -/
def shiftedOutRight (a : Byte) : Byte := flagByte (a.getLsbD 0)

/-- The bit a left shift shifts out: `a[7]` (R141). -/
def shiftedOutLeft (a : Byte) : Byte := flagByte (a.getLsbD 7)

/-- Overflow of the index register's sum: 1 iff the exact sum is at least 65536 (R152). -/
def carryIndex (i : Word) (b : Byte) : Byte := flagByte (decide (65536 ≤ i.toNat + b.toNat))

/-- Collision of a draw: 1 iff some pixel went from set to unset (R171). -/
def collisionFlag (c : Bool) : Byte := flagByte c

end Sys2Proof.Machine
end

