-- ==== Sys2Proof/Machine/Operands.lean ====
section
/-! DEFINITION. Every operand form of the spec (R73, R150): fields used as values, register ranges, data addresses. -/

namespace Sys2Proof.Machine

/-- A 12-bit address field written to a 16-bit register: `zext_16(nnn)` (R73). -/
def zextAddr (nnn : Addr) : Word := nnn.setWidth 16

/-- A register's value as a 16-bit operand: `zext_16(V[x])` (R118, R153). -/
def zextByte (b : Byte) : Word := b.setWidth 16

/-- The data address `I + k`, exact and unbounded (R53, R150). -/
def State.address (s : State) (k : Nat) : Nat := s.i.toNat + k

/-- The data addresses `I`, …, `I + n - 1`, in order (R54). -/
def State.addresses (s : State) (n : Nat) : List Nat := (List.range n).map s.address

/-- The registers `V[0]` to `V[x]`, in order (R73, R155). -/
def State.regsUpTo (s : State) (x : Nibble) : List Byte := s.v.toList.take (x.val + 1)

/-- `V[k] <- MemRead(I + k)` for k in 0..n-1 (R156); the addresses use `I`, which the loads do not change. -/
def State.loadRegs (s : State) : Nat → State
  | 0 => s
  | n + 1 => (s.loadRegs n).setReg (Fin.ofNat 16 n) (s.memRead (s.address n))

/-- The three decimal digits of a byte: hundreds, tens, ones (R154). -/
def bcdDigits (b : Byte) : List Byte :=
  [BitVec.ofNat 8 (b.toNat / 100), BitVec.ofNat 8 (b.toNat / 10 % 10), BitVec.ofNat 8 (b.toNat % 10)]

/-- The key number an instruction indexes the key table with: `V[x]` (R180). -/
def State.keyNumber (s : State) (x : Nibble) : Nat := (s.reg x).toNat

end Sys2Proof.Machine
end

