-- ==== Sys2Proof/Machine/Alu.lean ====
section
/-! DEFINITION. The register arithmetic and logic instructions (spec/42_alu.md). Operands are read from the state before
the instruction, the result is written next and the flag last (R130). -/

namespace Sys2Proof.Machine

/-- Writes a result that has no flag: `V[x] <- r; pc <- p + 2`. -/
def aluResult (x : Nibble) (r : Byte) (s : State) : Host.Outcome State Fault Refusal :=
  .next (s.setReg x r).nextInstr

/-- Writes a result, then the flag: `V[x] <- r; V[F] <- f; pc <- p + 2` (R130). -/
def aluResultFlag (x : Nibble) (r f : Byte) (s : State) : Host.Outcome State Fault Refusal :=
  .next ((s.setReg x r).setFlag f).nextInstr

/-- LD Vx, nn (R131). -/
def execLdImm (x : Nibble) (nn : Byte) (s : State) : Host.Outcome State Fault Refusal :=
  aluResult x nn s

/-- ADD Vx, nn (R132): modulo 256, no flag. -/
def execAddImm (x : Nibble) (nn : Byte) (s : State) : Host.Outcome State Fault Refusal :=
  aluResult x (s.reg x + nn) s

/-- LD Vx, Vy (R133). -/
def execLdReg (x y : Nibble) (s : State) : Host.Outcome State Fault Refusal :=
  aluResult x (s.reg y) s

/-- OR Vx, Vy (R134). -/
def execOr (x y : Nibble) (s : State) : Host.Outcome State Fault Refusal :=
  aluResult x (s.reg x ||| s.reg y) s

/-- AND Vx, Vy (R135). -/
def execAnd (x y : Nibble) (s : State) : Host.Outcome State Fault Refusal :=
  aluResult x (s.reg x &&& s.reg y) s

/-- XOR Vx, Vy (R136). -/
def execXor (x y : Nibble) (s : State) : Host.Outcome State Fault Refusal :=
  aluResult x (s.reg x ^^^ s.reg y) s

/-- ADD Vx, Vy (R137): VF = carry. -/
def execAdd (x y : Nibble) (s : State) : Host.Outcome State Fault Refusal :=
  aluResultFlag x (s.reg x + s.reg y) (carryAdd (s.reg x) (s.reg y)) s

/-- SUB Vx, Vy (R138): `V[x] - V[y]`, VF = 1 on borrow. -/
def execSub (x y : Nibble) (s : State) : Host.Outcome State Fault Refusal :=
  aluResultFlag x (s.reg x - s.reg y) (borrowSub (s.reg x) (s.reg y)) s

/-- SHR Vx (R139): the operand is `V[x]`, VF = its bit 0. -/
def execShr (x : Nibble) (s : State) : Host.Outcome State Fault Refusal :=
  aluResultFlag x (s.reg x >>> 1) (shiftedOutRight (s.reg x)) s

/-- SUBN Vx, Vy (R140): `V[y] - V[x]`, VF = 1 on borrow. -/
def execSubn (x y : Nibble) (s : State) : Host.Outcome State Fault Refusal :=
  aluResultFlag x (s.reg y - s.reg x) (borrowSub (s.reg y) (s.reg x)) s

/-- SHL Vx (R141): the operand is `V[x]`, VF = its bit 7. -/
def execShl (x : Nibble) (s : State) : Host.Outcome State Fault Refusal :=
  aluResultFlag x (s.reg x <<< 1) (shiftedOutLeft (s.reg x)) s

end Sys2Proof.Machine
end

