-- ==== Sys2Proof/Machine/Display.lean ====
section
/-! DEFINITION. The display instructions (spec/44_display.md). -/

namespace Sys2Proof.Machine

/-- CLS (R170): every cell 0. -/
def execCls (s : State) : Host.Outcome State Fault Refusal :=
  .next (s.setFb []).nextInstr

/-- DRW Vx, Vy, n (R171, R172): all checks in loop order before anything is kept; VF = collision, written last. -/
def execDrw (x y n : Nibble) (s : State) : Host.Outcome State Fault Refusal :=
  match s.drawRows (s.reg x).toNat (s.reg y).toNat (List.range n.val) (s.fb, false) with
  | .ok (f, collided) => .next ((s.setFb f).setFlag (collisionFlag collided)).nextInstr
  | .error info => .next (s.raise .outOfBoundsAccess (some (encode (.drw x y n))) info)

end Sys2Proof.Machine
end

