-- ==== Sys2Proof/Machine/IndexMemory.lean ====
section
/-! DEFINITION. The index-register and memory instructions (spec/43_index_memory.md). -/

namespace Sys2Proof.Machine

/-- Checks the n data addresses `I`, …, `I + n - 1` in order; the first that is out of bounds raises
OutOfBoundsAccess(memory), and nothing is written (R150). -/
def checkedAccess (w : Word) (n : Nat) (s : State) (done : State) : Host.Outcome State Fault Refusal :=
  match s.firstOutOfBounds (s.addresses n) with
  | some a => .next (s.raise .outOfBoundsAccess (some w) (.memoryAt a))
  | none => .next done

/-- LD I, nnn (R151). -/
def execLdI (nnn : Addr) (s : State) : Host.Outcome State Fault Refusal :=
  .next (s.setIndex (zextAddr nnn)).nextInstr

/-- ADD I, Vx (R152): modulo 65536, VF = 1 on 16-bit overflow, the flag written last. -/
def execAddI (x : Nibble) (s : State) : Host.Outcome State Fault Refusal :=
  .next ((s.setIndex (s.i + zextByte (s.reg x))).setFlag (carryIndex s.i (s.reg x))).nextInstr

/-- LD F, Vx (R153): `V[x] × 5`, unmasked. -/
def execLdF (x : Nibble) (s : State) : Host.Outcome State Fault Refusal :=
  .next (s.setIndex (zextByte (s.reg x) * 5)).nextInstr

/-- LD B, Vx (R154). -/
def execLdB (x : Nibble) (s : State) : Host.Outcome State Fault Refusal :=
  checkedAccess (encode (.ldB x)) 3 s (s.storeBytes (s.address 0) (bcdDigits (s.reg x))).nextInstr

/-- LD [I], Vx (R155). -/
def execLdMemVx (x : Nibble) (s : State) : Host.Outcome State Fault Refusal :=
  checkedAccess (encode (.ldMemVx x)) (x.val + 1) s (s.storeBytes (s.address 0) (s.regsUpTo x)).nextInstr

/-- LD Vx, [I] (R156). -/
def execLdVxMem (x : Nibble) (s : State) : Host.Outcome State Fault Refusal :=
  checkedAccess (encode (.ldVxMem x)) (x.val + 1) s (s.loadRegs (x.val + 1)).nextInstr

end Sys2Proof.Machine
end

