-- ==== Sys2Proof/Machine/IoTimers.lean ====
section
/-! DEFINITION. The random, key and timer instructions (spec/45_io_timers.md). -/

namespace Sys2Proof.Machine

/-- Checks the key number `V[x]`; above 15 it raises OutOfBoundsAccess(keys) (R180). -/
def checkedKey (w : Word) (x : Nibble) (s : State) (done : State) : Host.Outcome State Fault Refusal :=
  if 15 < s.keyNumber x then .next (s.raise .outOfBoundsAccess (some w) (.keyAt (s.keyNumber x)))
  else .next done

/-- RND Vx, nn (R181). -/
def execRnd (x : Nibble) (nn : Byte) (s : State) : Host.Outcome State Fault Refusal :=
  .next (s.takeRnd.setReg x (s.rnd &&& nn)).nextInstr

/-- SKP Vx (R182). -/
def execSkp (x : Nibble) (s : State) : Host.Outcome State Fault Refusal :=
  checkedKey (encode (.skp x)) x s (s.skipIf (s.keyPressed (s.keyNumber x)))

/-- SKNP Vx (R183). -/
def execSknp (x : Nibble) (s : State) : Host.Outcome State Fault Refusal :=
  checkedKey (encode (.sknp x)) x s (s.skipIf (!s.keyPressed (s.keyNumber x)))

/-- LD Vx, DT (R184). -/
def execLdVxDt (x : Nibble) (s : State) : Host.Outcome State Fault Refusal :=
  .next (s.setReg x s.dt).nextInstr

/-- LD Vx, K (R185): the least pressed key; with none pressed the pc stays, and the next step runs it again. -/
def execLdVxK (x : Nibble) (s : State) : Host.Outcome State Fault Refusal :=
  match s.firstKey with
  | some k => .next (s.setReg x (BitVec.ofNat 8 k)).nextInstr
  | none => .next s

/-- LD DT, Vx (R186). -/
def execLdDtVx (x : Nibble) (s : State) : Host.Outcome State Fault Refusal :=
  .next (s.setDt (s.reg x)).nextInstr

/-- LD ST, Vx (R187). -/
def execLdStVx (x : Nibble) (s : State) : Host.Outcome State Fault Refusal :=
  .next (s.setSt (s.reg x)).nextInstr

end Sys2Proof.Machine
end

