-- ==== Sys2Proof/Machine/Step.lean ====
section
/-! DEFINITION. The step: one cycle of fetch, decode, execute and timer tick (R90). -/

namespace Sys2Proof.Machine

/-- Fetching and Executing, before the Timer-Tick phase (R90 to R93). An error leaves the halted state. -/
def stepBody (s : State) : Host.Outcome State Fault Refusal :=
  match s.fetchDecode with
  | .ok i => exec i s
  | .error t => .next t

/-- One step (R90). While Halted it changes nothing (R91). -/
def step (s : State) : Host.Outcome State Fault Refusal :=
  match s.run with
  | .halted => .next s
  | .running => finishCycle (stepBody s)

/-- `s` with the instruction word `w`, numbered as spec/opcode_table.json numbers it, stored where the next step
fetches. It stands for the program load (log entry 8). -/
def State.withFetchWord (s : State) (nbits w : Nat) : State :=
  s.placeWord (BitVec.ofNat 16 (w % 2 ^ nbits))

end Sys2Proof.Machine
end

