-- ==== Sys2Proof/Machine/HostOps.lean ====
section
/-! DEFINITION. The host operations (R45): reset, step with its random byte and its result, tick, setKeys, observe. -/

namespace Sys2Proof.Machine

/-- What `reset` answers (R45). -/
inductive ResetResult where
  | ok
  | programLoadError
  deriving DecidableEq, Repr

/-- What `step` answers (R45, R96): `ok(beep)` or `error(ERR)`. -/
inductive StepResult where
  | ok (beep : Bool)
  | error (err : Option ErrRecord)
  deriving DecidableEq, Repr

/-- What the host sees: `FB`, `RUN`, `ERR` (R45). -/
structure Observation where
  /-- the 2048 cells, row-major -/
  fb : List Byte
  run : RunState
  err : Option ErrRecord
  deriving DecidableEq, Repr

/-- The reset state of the machine without an image (R44, R230): every element of R20 at its reset value. The
parameters stay the machine's, and the random bytes still to come stay the environment's. -/
def State.clear (s : State) : State :=
  { State.reset with rndIn := s.rndIn, rndDraws := s.rndDraws, cfg := s.cfg }

/-- The state after a refused load: the reset state, Halted, with ProgramLoadError and the length (R230, R233). -/
def State.refuseLoad (s : State) (len : Nat) : State :=
  s.clear.raise .programLoadError none (.imageLength len)

/-- The state `reset(image)` leaves; none is a missing or unreadable image (R230 to R234). -/
def State.resetWith (s : State) : Option (List Byte) → State
  | none => s.refuseLoad 0
  | some image =>
    if 3584 < image.length then s.refuseLoad image.length else s.clear.storeBytes 0x200 image

/-- What `reset(image)` answers (R230, R232). -/
def resetResult : Option (List Byte) → ResetResult
  | none => .programLoadError
  | some image => if 3584 < image.length then .programLoadError else .ok

/-- The state an outcome leaves, where the machine stops the state before it. -/
def outcomeState (s : State) : Host.Outcome State Fault Refusal → State
  | .next t => t
  | .fault _ => s
  | .refused _ => s

/-- What a step answers (R90, R91, R96): `error(ERR)` when the machine is Halted before it or halts in it, else
`ok(beep)`, where beep is true only when the step's own tick emitted it. -/
def stepResult (s : State) : StepResult :=
  match s.run with
  | .halted => .error s.err
  | .running =>
    let t := outcomeState s (stepBody s)
    match t.run with
    | .halted => .error t.err
    | .running => .ok (t.ticksInStep && t.beeps)

/-- The host supplies the random byte of the next step (R45). -/
def State.supplyRnd (s : State) (b : Byte) : State := { s with rndIn := [b] }

/-- The state `step(rnd)` leaves (R45). The byte belongs to this step alone: a step that draws nothing ignores it. -/
def hostStep (s : State) (b : Byte) : State :=
  { outcomeState s (step (s.supplyRnd b)) with rndIn := s.rndIn, rndDraws := s.rndDraws }

/-- The state `tick()` leaves; while Halted it changes nothing (R210, R213). -/
def State.tick (s : State) : State :=
  match s.run with
  | .halted => s
  | .running => s.tickBody

/-- What `tick()` answers: whether it emitted the beep event (R210, R213). -/
def State.tickResult (s : State) : Bool :=
  match s.run with
  | .halted => false
  | .running => s.beeps

/-- `observe()` (R45): it changes nothing. -/
def State.observe (s : State) : Observation where
  fb := (List.range 2048).map s.fb.cell
  run := s.run
  err := s.err

/-- The host operations that can change the state (R45). -/
inductive HostOp where
  | reset (image : Option (List Byte))
  | step (rnd : Byte)
  | tick
  | setKeys (k : Word)
  deriving DecidableEq, Repr

/-- The state a host operation leaves (R45). -/
def State.apply (s : State) : HostOp → State
  | .reset image => s.resetWith image
  | .step b => hostStep s b
  | .tick => s.tick
  | .setKeys k => s.setKeys k

end Sys2Proof.Machine
end

