-- ==== Sys2Proof/Safety.lean ====
section
/-! DEFINITION. What the claims are stated in: the machine's invariant, the frame of a transition, which instruction
writes what and raises what, idle and halted states, balanced calls. -/

namespace Sys2Proof.Machine

/-! ## Invariants -/

/-- The invariant between any two host operations (R48; `0 ≤ SP ≤ 16` is the type of `sp`): the framebuffer holds cells
0 to 2047 with 0 or 1 each, `RUN = Halted` exactly when `ERR ≠ none`; and the canonical form of the model's memory. -/
def State.Inv (s : State) : Prop :=
  Memory.wf s.cfg.font s.mem ∧ Framebuffer.wf s.fb ∧ (s.run = .halted ↔ s.err ≠ none)

/-- The program counter's reach under MEM_OOB_POLICY = fault (R27): at most 0x10FE, with every occupied stack entry the
address of an executed instruction, at most 0x0FFE. -/
def State.PcBounded (s : State) : Prop :=
  s.pc.toNat ≤ 0x10FE ∧ ∀ j : Fin 16, j.val < s.sp.val → s.stack[j].toNat ≤ 0x0FFE

/-! ## Frames -/

/-- The elements of the state (R20), and the model's own three fields as one. -/
inductive Elem where
  | mem | v | i | pc | stack | sp | fb | dt | st | key | run | err | own
  deriving DecidableEq, Repr

/-- Two states hold the same in an element. Memory and the framebuffer are compared by what every address reads as. -/
def State.agree (s t : State) : Elem → Prop
  | .mem => ∀ a, t.memRead a = s.memRead a
  | .v => ∀ r, t.reg r = s.reg r
  | .i => t.i = s.i
  | .pc => t.pc = s.pc
  | .stack => t.stack = s.stack
  | .sp => t.sp = s.sp
  | .fb => ∀ k, t.fb.cell k = s.fb.cell k
  | .dt => t.dt = s.dt
  | .st => t.st = s.st
  | .key => t.key = s.key
  | .run => t.run = s.run
  | .err => t.err = s.err
  | .own => t.rndIn = s.rndIn ∧ t.rndDraws = s.rndDraws ∧ t.cfg = s.cfg

/-- Every element outside the list is unchanged. -/
def State.frame (changed : List Elem) (s t : State) : Prop := ∀ e, e ∉ changed → s.agree t e

/-- Every register but those of the list is unchanged. -/
def State.regsFrame (changed : List Nibble) (s t : State) : Prop := ∀ r, r ∉ changed → t.reg r = s.reg r

/-- A result and then a flag (R130): register x holds the result unless it is VF, VF holds the flag, the pc goes on by 2,
and nothing else changes. -/
def State.resultAndFlag (s t : State) (x : Nibble) (result flag : Nat) : Prop :=
  (x ≠ 15 → (t.reg x).toNat = result) ∧ (t.reg 15).toNat = flag ∧ s.regsFrame [x, 15] t ∧
    t.pc = s.pc + 2 ∧ s.frame [.v, .pc] t

/-- A result without a flag: register x holds it, the pc goes on by 2, and nothing else changes. -/
def State.resultOnly (s t : State) (x : Nibble) (result : Byte) : Prop :=
  t.reg x = result ∧ s.regsFrame [x] t ∧ t.pc = s.pc + 2 ∧ s.frame [.v, .pc] t

/-- The pc after a skip on a condition, and nothing else changes (R110). -/
def State.skips (s t : State) (c : Prop) : Prop :=
  (c → t.pc = s.pc + 4) ∧ (¬ c → t.pc = s.pc + 2) ∧ s.frame [.pc] t

/-- Bytes stored in order from the exact address a, each modulo 4096 (R53), and every other address reads as before. -/
def State.storedAt (s t : State) (a : Nat) (bytes : List Byte) : Prop :=
  (∀ j, (h : j < bytes.length) → t.memRead (a + j) = bytes[j]) ∧
    ∀ b, (∀ j < bytes.length, b % 4096 ≠ (a + j) % 4096) → t.memRead b = s.memRead b

/-- The state an error leaves: the state before the step but for `RUN` and `ERR` (R97, R204). -/
def State.haltedWith (s : State) (e : ErrRecord) : State := { s with run := .halted, err := some e }

/-- The info of an error is the one its kind records (R201). -/
def ErrRecord.infoFits (e : ErrRecord) : Prop :=
  match e.kind with
  | .unsupportedInstruction => e.info = .noInfo
  | .callStackOverflow => e.info = .stackPointer 16
  | .callStackUnderflow => e.info = .stackPointer 0
  | .outOfBoundsAccess => e.info = .fetchAt e.pc.toNat ∨ (∃ a, e.info = .memoryAt a) ∨
      (∃ px py, e.info = .framebufferAt px py) ∨ ∃ k, e.info = .keyAt k
  | .programLoadError => ∃ n, e.info = .imageLength n

end Sys2Proof.Machine

/-! ## Who writes what, who raises what -/

namespace Sys2Proof

open Sys2Proof.Machine

/-- The general registers an instruction may write, by R23. -/
def Instr.regWrites : Instr → List Nibble
  | .ldImm x _ | .addImm x _ | .ldReg x _ | .orReg x _ | .andReg x _ | .xorReg x _ => [x]
  | .addReg x _ | .subReg x _ | .shr x _ | .subnReg x _ | .shl x _ => [x, 15]
  | .rnd x _ | .ldVxDt x | .ldVxK x => [x]
  | .ldVxMem x => (List.finRange 16).filter fun r => r.val ≤ x.val
  | .addI _ | .drw _ _ _ => [15]
  | .cls _ | .ret _ | .jp _ | .call _ | .seImm _ _ | .sneImm _ _ | .seReg _ _ _ | .sneReg _ _ _ | .ldI _ | .jpV0 _
  | .skp _ | .sknp _ | .ldDtVx _ | .ldStVx _ | .ldF _ | .ldB _ | .ldMemVx _ => []

/-- The elements other than registers, pc, RUN and ERR that an instruction may write: I by R29, the stack and SP by R30
and R31, DT by R32, ST by R33, memory by R54, the framebuffer by R37, and the random byte RND takes by R45. -/
def Instr.elemWrites : Instr → List Elem
  | .cls _ | .drw _ _ _ => [.fb]
  | .ret _ => [.sp]
  | .call _ => [.stack, .sp]
  | .ldI _ | .addI _ | .ldF _ => [.i]
  | .ldB _ | .ldMemVx _ => [.mem]
  | .ldDtVx _ => [.dt]
  | .ldStVx _ => [.st]
  | .rnd _ _ => [.own]
  | .jp _ | .seImm _ _ | .sneImm _ _ | .seReg _ _ _ | .sneReg _ _ _ | .jpV0 _ | .ldImm _ _ | .addImm _ _ | .ldReg _ _
  | .orReg _ _ | .andReg _ _ | .xorReg _ _ | .addReg _ _ | .subReg _ _ | .shr _ _ | .subnReg _ _ | .shl _ _
  | .skp _ | .sknp _ | .ldVxDt _ | .ldVxK _ | .ldVxMem _ => []

/-- The errors an instruction of its own can raise, by R202: the table, and the last sentence for the policies. -/
def Instr.mayRaise (cfg : Config) : Instr → ErrRecord → Prop
  | .ret _, e => e.kind = .callStackUnderflow ∧ e.info = .stackPointer 0
  | .call _, e => e.kind = .callStackOverflow ∧ e.info = .stackPointer 16
  | .drw _ _ _, e => e.kind = .outOfBoundsAccess ∧
      ((cfg.memOob = .fault ∧ ∃ a, e.info = .memoryAt a ∧ 4096 ≤ a) ∨
       (cfg.fbEdge = .fault ∧ ∃ px py, e.info = .framebufferAt px py ∧ (64 ≤ px ∨ 32 ≤ py)))
  | .ldB _, e | .ldMemVx _, e | .ldVxMem _, e => e.kind = .outOfBoundsAccess ∧
      cfg.memOob = .fault ∧ ∃ a, e.info = .memoryAt a ∧ 4096 ≤ a
  | .skp _, e | .sknp _, e => e.kind = .outOfBoundsAccess ∧ ∃ k, e.info = .keyAt k ∧ 15 < k
  | .cls _, _ | .jp _, _ | .seImm _ _, _ | .sneImm _ _, _ | .seReg _ _ _, _ | .sneReg _ _ _, _ | .jpV0 _, _
  | .ldImm _ _, _ | .addImm _ _, _ | .ldReg _ _, _ | .orReg _ _, _ | .andReg _ _, _ | .xorReg _ _, _ | .addReg _ _, _
  | .subReg _ _, _ | .shr _ _, _ | .subnReg _ _, _ | .shl _ _, _ | .ldI _, _ | .rnd _ _, _ | .ldVxDt _, _
  | .ldVxK _, _ | .ldDtVx _, _ | .ldStVx _, _ | .addI _, _ | .ldF _, _ => False

end Sys2Proof

namespace Sys2Proof.Machine

/-! ## Ends of a run -/

/-- Idle at p (R101): running, at p, p fetchable, with the self-jump word there. -/
def State.idleAt (s : State) (p : Word) : Prop :=
  s.run = .running ∧ s.pc = p ∧ p.toNat ≤ 0x0FFE ∧
    wordOfBytes (s.memRead p.toNat) (s.memRead (p.toNat + 1)) = (0x1000 : Word) ||| p

/-! ## Sprites -/

/-- Whether bit c of row r of the sprite at `I` is set: bit 7 of the row byte is column 0 (R171, R174). -/
def State.spriteBit (s : State) (r c : Nat) : Bool := (s.memRead (s.i.toNat + r)).getLsbD (7 - c)

/-- The sprite of n rows drawn with its corner at column cx and row cy has a set bit placed on cell k (R171, R172). -/
def State.covers (s : State) (cx cy n k : Nat) : Prop :=
  ∃ r < n, ∃ c < 8, s.spriteBit r c = true ∧ placePixel s.cfg.fbEdge (cx + c) (cy + r) = .cell k

/-- No check of the draw fails: every row is in memory and no set bit is an out-of-bounds access (R171, R172). -/
def State.drawable (s : State) (cx cy n : Nat) : Prop :=
  ∀ r < n, s.outOfBounds (s.i.toNat + r) = false ∧
    ∀ c < 8, s.spriteBit r c = true → placePixel s.cfg.fbEdge (cx + c) (cy + r) ≠ .outside

/-! ## Balanced calls -/

/-- Operations without an error, in which calls and returns balance (R119): nothing, one instruction that is neither, a
tick or a change of the key table between instructions (R45), a call with a balanced body and its return, one after the
other. -/
inductive Balanced : State → State → Prop where
  | nothing (s : State) : Balanced s s
  | other {s t : State} (i : Instr) (hcall : ∀ nnn, i ≠ .call nnn) (hret : ∀ ign, i ≠ .ret ign)
      (h : exec i s = .next t) (ht : t.run = .running) : Balanced s t
  | ticked (s : State) : Balanced s s.tick
  | keysSet (s : State) (k : Word) : Balanced s (s.setKeys k)
  | subroutine {s t u w : State} (nnn : Addr) (ign : Nibble) (hcall : exec (.call nnn) s = .next t)
      (ht : t.run = .running) (body : Balanced t u) (hret : exec (.ret ign) u = .next w) (hw : w.run = .running) :
      Balanced s w
  | andThen {s t u : State} (first : Balanced s t) (second : Balanced t u) : Balanced s u

end Sys2Proof.Machine
end

