-- ==== Sys2Proof/Certificates/Slice0/Obligations.lean ====
section
/-! DEFINITION. The statements for the provers, in the order of OBLIGATIONS.json. -/

open Sys2Proof Sys2Proof.Machine

/-! ## Encoding -/

/-- Words the spec itself writes down decode to the instructions it says they are (R76, its examples and vectors). -/
def Obligations.SpecWordsDecode : Prop :=
  decode false 0x00E0 = .ok (.cls 0) ∧ decode false 0x00EE = .ok (.ret 0) ∧
  decode false 0x6A05 = .ok (.ldImm 0xA 0x05) ∧ decode false 0x8AB4 = .ok (.addReg 0xA 0xB) ∧
  decode false 0xA2F0 = .ok (.ldI 0x2F0) ∧ decode false 0xF355 = .ok (.ldMemVx 0x3) ∧
  decode false 0xD125 = .ok (.drw 0x1 0x2 0x5) ∧ decode false 0xC30F = .ok (.rnd 0x3 0x0F) ∧
  decode false 0x01E0 = .ok (.cls 0x1) ∧ decode true 0x01E0 = .error (.unsupportedInstruction 0x01E0)

/-- Every well-formed instruction is the decoding of its word, under both values of STRICT_DECODE. That the instruction
keeps its ignored field is the model's choice (log entry 2). -/
def Obligations.DecodeEncodeAgree : Prop :=
  ∀ strict i, i.wellFormed strict = true → decode strict (encode i) = .ok i

/-- A decoded instruction is well-formed and its word is the word it was decoded from. That the instruction keeps its
ignored field is the model's choice (log entry 2). -/
def Obligations.DecodedInstructionEncodesToItsWord : Prop :=
  ∀ strict w i, decode strict w = .ok i → encode i = w ∧ i.wellFormed strict = true

/-- The decoder follows the opcode map of R76: a decoded instruction's row selects the word, and a word is refused
exactly when no row selects it (R78). -/
def Obligations.DecodeFollowsOpcodeMap : Prop :=
  ∀ strict w,
    (∀ i, decode strict w = .ok i → i.row ∈ opcodeRows ∧ i.row.selects strict w = true) ∧
    ((∃ e, decode strict w = .error e) ↔ ∀ r ∈ opcodeRows, r.selects strict w = false)

/-- No word matches two rows under either setting of STRICT_DECODE (R76). -/
def Obligations.OpcodeRowsDisjoint : Prop :=
  ∀ strict w, ∀ r ∈ opcodeRows, ∀ r' ∈ opcodeRows,
    r.selects strict w = true → r'.selects strict w = true → r = r'

/-! ## The cycle -/

/-- A step of a running machine whose two bytes at the pc are fetchable and decode to i is i's execution at that state,
ended by the timer tick where TICK_IN_STEP asks for one (R90, R93); without it, it is exactly i's execution. -/
def Obligations.StepRunsDecodedInstruction : Prop :=
  ∀ (s : State) (i : Instr), s.run = .running → s.outOfBounds (s.pc.toNat + 1) = false →
    decode s.cfg.strictDecode (wordOfBytes (s.memRead s.pc.toNat) (s.memRead (s.pc.toNat + 1))) = .ok i →
    step s = finishCycle (exec i s) ∧
    ((∃ t, exec i s = .next t ∧ t.cfg.tickInStep = false) → step s = exec i s)

/-- A step while Halted changes no state and returns the latched error (R91). -/
def Obligations.HaltedStepChangesNothing : Prop :=
  ∀ (s : State) (b : Byte), s.run = .halted →
    step s = .next s ∧ hostStep s b = s ∧ stepResult s = .error s.err

/-- The fetch bounds check (R55): under fault a pc at or above 0x0FFF raises OutOfBoundsAccess(fetch, pc) with no word, and
a lower pc is fetched; under wrap the two bytes are at pc and pc + 1 modulo 4096. -/
def Obligations.FetchBoundsCheck : Prop :=
  ∀ s : State, s.run = .running →
    (s.cfg.memOob = .fault → 4096 ≤ s.pc.toNat + 1 →
      step s = .next (s.haltedWith ⟨.outOfBoundsAccess, s.pc, none, .fetchAt s.pc.toNat⟩)) ∧
    (s.cfg.memOob = .fault → s.pc.toNat + 1 < 4096 →
      s.fetch = .ok (wordOfBytes (s.memRead s.pc.toNat) (s.memRead (s.pc.toNat + 1)))) ∧
    (s.cfg.memOob = .wrap →
      s.fetch = .ok (wordOfBytes (s.memRead (s.pc.toNat % 4096)) (s.memRead ((s.pc.toNat + 1) % 4096))))

/-- Executing a word that matches no row raises UnsupportedInstruction with that word; the step keeps no change (R78). -/
def Obligations.UnsupportedWordHalts : Prop :=
  ∀ (s : State) (w : Word), s.run = .running → s.fetch = .ok w →
    (∀ r ∈ opcodeRows, r.selects s.cfg.strictDecode w = false) →
    step s = .next (s.haltedWith ⟨.unsupportedInstruction, s.pc, some w, .noInfo⟩)

/-- Errors are precise (R204): after a step that halts, the state is the state before it but for RUN and ERR, and the step
returns error(ERR). ERR holds what R201 says: the failing instruction's address, its word (none when the fetch failed), and
the info of its kind. -/
def Obligations.ErrorsArePrecise : Prop :=
  ∀ s t : State, s.run = .running → step s = .next t → t.run = .halted →
    stepResult s = .error t.err ∧
    ∃ e, t = s.haltedWith e ∧ e.pc = s.pc ∧ e.infoFits ∧
      (∀ w, s.fetch = .ok w → e.word = some w) ∧ (∀ u, s.fetch = .error u → e.word = none)

/-- Every state has a next state: no instruction stops the model (R100, and R204 for errors). -/
def Obligations.StepAlwaysAnswersNextState : Prop :=
  ∀ s : State, ∃ t, step s = .next t

/-- An instruction that raises an error raises one that the spec's table of errors gives it (R202, which the spec marks
derived), with the instruction's word and address. -/
def Obligations.InstructionRaisesOnlyItsErrors : Prop :=
  ∀ (i : Instr) (s t : State), s.run = .running → exec i s = .next t → t.run = .halted →
    ∃ e, t.err = some e ∧ i.mayRaise s.cfg e ∧ e.pc = s.pc ∧ e.word = some (encode i)

/-- The timer tick within a step (R95): with TICK_IN_STEP the step ends with one tick after the instruction has run and
returns its beep; without it the step adds nothing; a step that raises an error performs no tick. -/
def Obligations.TickEndsStepWhenCoupled : Prop :=
  ∀ (s t : State) (i : Instr), s.run = .running → s.fetchDecode = .ok i → exec i s = .next t →
    (t.run = .running → s.cfg.tickInStep = true → step s = .next t.tickBody ∧ stepResult s = .ok t.beeps) ∧
    (t.run = .running → s.cfg.tickInStep = false → step s = .next t ∧ stepResult s = .ok false) ∧
    (t.run = .halted → step s = .next t)

/-- A step from a state idle at p leaves it unchanged without TICK_IN_STEP, and with it changes only the timers; every
step of a halted state leaves it unchanged (R101, which the spec marks derived). -/
def Obligations.IdleAndHaltedStatesStay : Prop :=
  ∀ (s : State) (p : Word),
    (s.idleAt p → s.cfg.tickInStep = false → step s = .next s) ∧
    (s.idleAt p → s.cfg.tickInStep = true → ∃ t, step s = .next t ∧ s.frame [.dt, .st] t) ∧
    (s.run = .halted → step s = .next s)

/-! ## Invariants and whole-machine rules -/

/-- Every step keeps the invariant. -/
def Obligations.StepKeepsInvariant : Prop :=
  ∀ s t : State, s.Inv → step s = .next t → t.Inv

/-- The state after reset satisfies the invariant and the pc bound. -/
def Obligations.ResetSatisfiesInvariants : Prop :=
  State.reset.Inv ∧ State.reset.PcBounded

/-- Between any two host operations after a reset, `0 ≤ SP ≤ 16`, every framebuffer cell is 0 or 1, and RUN = Halted
exactly when ERR is not none (R48, which the spec marks derived). -/
def Obligations.HostOperationsKeepInvariants : Prop :=
  ∀ (s : State) (image : Option (List Byte)) (ops : List HostOp),
    let t := ops.foldl State.apply (s.resetWith image)
    t.sp.val ≤ 16 ∧ (∀ k, t.fb.cell k = 0 ∨ t.fb.cell k = 1) ∧ (t.run = .halted ↔ t.err ≠ none)

/-- Under MEM_OOB_POLICY = fault every executed instruction is at or below 0x0FFE and the pc stays at or below 0x10FE
(R27, whose sentence the spec marks derived). -/
def Obligations.PcStaysBounded : Prop :=
  ∀ s t : State, s.cfg.memOob = .fault → s.PcBounded → step s = .next t →
    t.PcBounded ∧ ((∃ w, s.fetch = .ok w) → s.pc.toNat ≤ 0x0FFE)

/-- No step changes the key table or the parameters: the CORE only reads the keys (R38), and the parameters are fixed. -/
def Obligations.StepKeepsKeysAndParameters : Prop :=
  ∀ s t : State, step s = .next t → t.key = s.key ∧ t.cfg = s.cfg

/-- The writers of the general registers are those of R23, which the spec marks derived: no instruction changes another
register. -/
def Obligations.OnlyListedInstructionsWriteRegisters : Prop :=
  ∀ (i : Instr) (s t : State), exec i s = .next t → s.regsFrame i.regWrites t

/-- Memory, I, the stack, SP, the framebuffer, the timers and the keys are changed only by the instructions the rules
name (R29 to R33, R37, R38, R54). -/
def Obligations.OnlyListedInstructionsWriteElements : Prop :=
  ∀ (i : Instr) (s t : State), exec i s = .next t → s.frame (i.elemWrites ++ [.v, .pc, .run, .err]) t

/-- Only reset leaves Halted, setting RUN to Running and ERR to none with the whole state reinitialised (R206). -/
def Obligations.OnlyResetLeavesHalted : Prop :=
  (∀ (s : State) (op : HostOp), s.run = .halted → (s.apply op).run = .running → ∃ image, op = .reset (some image)) ∧
  ∀ (s : State) (image : List Byte), image.length ≤ 3584 →
    (s.apply (.reset (some image))).run = .running ∧ (s.apply (.reset (some image))).err = none ∧
    s.apply (.reset (some image)) = s.clear.storeBytes 0x200 image

/-! ## Register arithmetic and logic -/

/-- LD Vx, nn; LD Vx, Vy and LD Vx, DT set register x to the immediate, the register, the delay timer (R131, R133,
R184). -/
def Obligations.LoadsSetRegister : Prop :=
  ∀ (x y : Nibble) (nn : Byte) (s : State),
    (∃ t, exec (.ldImm x nn) s = .next t ∧ s.resultOnly t x nn) ∧
    (∃ t, exec (.ldReg x y) s = .next t ∧ s.resultOnly t x (s.reg y)) ∧
    (∃ t, exec (.ldVxDt x) s = .next t ∧ s.resultOnly t x s.dt)

/-- ADD Vx, nn wraps modulo 256 and writes no flag, VF as destination included (R132). -/
def Obligations.AddImmediateWrapsWithoutFlag : Prop :=
  ∀ (x : Nibble) (nn : Byte) (s : State), ∃ t, exec (.addImm x nn) s = .next t ∧
    s.resultOnly t x (BitVec.ofNat 8 (((s.reg x).toNat + nn.toNat) % 256))

/-- OR, AND and XOR are bitwise and leave every other register, VF among them, unchanged (R134 to R136). -/
def Obligations.LogicIsBitwise : Prop :=
  ∀ (x y : Nibble) (s : State), ∃ a b c,
    exec (.orReg x y) s = .next a ∧ exec (.andReg x y) s = .next b ∧ exec (.xorReg x y) s = .next c ∧
    (∀ j, (a.reg x).getLsbD j = ((s.reg x).getLsbD j || (s.reg y).getLsbD j)) ∧
    (∀ j, (b.reg x).getLsbD j = ((s.reg x).getLsbD j && (s.reg y).getLsbD j)) ∧
    (∀ j, (c.reg x).getLsbD j = ((s.reg x).getLsbD j ^^ (s.reg y).getLsbD j)) ∧
    ∀ t ∈ [a, b, c], s.regsFrame [x] t ∧ t.pc = s.pc + 2 ∧ s.frame [.v, .pc] t

/-- ADD Vx, Vy: the sum modulo 256, then VF = 1 iff the exact sum is at least 256 (R137), for x = F the flag. -/
def Obligations.AddSetsCarry : Prop :=
  ∀ (x y : Nibble) (s : State), ∃ t, exec (.addReg x y) s = .next t ∧
    s.resultAndFlag t x (((s.reg x).toNat + (s.reg y).toNat) % 256)
      (if 256 ≤ (s.reg x).toNat + (s.reg y).toNat then 1 else 0)

/-- SUB and SUBN: the difference modulo 256, then VF = 1 iff a borrow occurred (R138, R140), for x = F the flag. -/
def Obligations.SubtractSetsBorrow : Prop :=
  ∀ (x y : Nibble) (s : State),
    (∃ t, exec (.subReg x y) s = .next t ∧
      s.resultAndFlag t x (((s.reg x).toNat + 256 - (s.reg y).toNat) % 256)
        (if (s.reg x).toNat < (s.reg y).toNat then 1 else 0)) ∧
    (∃ t, exec (.subnReg x y) s = .next t ∧
      s.resultAndFlag t x (((s.reg y).toNat + 256 - (s.reg x).toNat) % 256)
        (if (s.reg y).toNat < (s.reg x).toNat then 1 else 0))

/-- SHR and SHL shift register x by one, whatever the field y, then VF = the bit shifted out (R139, R141), for x = F the
flag. -/
def Obligations.ShiftsSetShiftedOutBit : Prop :=
  ∀ (x ign : Nibble) (s : State),
    (∃ t, exec (.shr x ign) s = .next t ∧ s.resultAndFlag t x ((s.reg x).toNat / 2) ((s.reg x).toNat % 2)) ∧
    (∃ t, exec (.shl x ign) s = .next t ∧ s.resultAndFlag t x ((s.reg x).toNat * 2 % 256) ((s.reg x).toNat / 128))

/-! ## Control transfer -/

/-- JP goes to nnn; JP V0 goes to nnn + V0; nothing else changes (R112, R118). -/
def Obligations.JumpsSetPc : Prop :=
  ∀ (nnn : Addr) (s : State),
    (∃ t, exec (.jp nnn) s = .next t ∧ t.pc.toNat = nnn.toNat ∧ s.frame [.pc] t) ∧
    (∃ t, exec (.jpV0 nnn) s = .next t ∧ t.pc.toNat = nnn.toNat + (s.reg 0).toNat ∧ s.frame [.pc] t)

/-- CALL pushes its own address and goes to nnn; at SP = 16 it raises CallStackOverflow and keeps no change (R113). -/
def Obligations.CallPushesItsAddress : Prop :=
  ∀ (nnn : Addr) (s : State),
    (s.sp.val < 16 → ∃ t, exec (.call nnn) s = .next t ∧ t.sp.val = s.sp.val + 1 ∧ t.pc.toNat = nnn.toNat ∧
      (∀ j : Fin 16, t.stack[j] = if j.val = s.sp.val then s.pc else s.stack[j]) ∧ s.frame [.stack, .sp, .pc] t) ∧
    (s.sp.val = 16 → exec (.call nnn) s = .next (s.haltedWith
      ⟨.callStackOverflow, s.pc, some (encode (.call nnn)), .stackPointer 16⟩))

/-- RET pops and goes to the popped entry + 2, the entry keeping its value; at SP = 0 it raises CallStackUnderflow and
keeps no change (R111). -/
def Obligations.ReturnGoesTwoPastCallSite : Prop :=
  ∀ (ign : Nibble) (s : State),
    (∀ j : Fin 16, s.sp.val = j.val + 1 → ∃ t, exec (.ret ign) s = .next t ∧ t.sp.val = j.val ∧
      t.pc = s.stack[j] + 2 ∧ s.frame [.sp, .pc] t) ∧
    (s.sp.val = 0 → exec (.ret ign) s = .next (s.haltedWith
      ⟨.callStackUnderflow, s.pc, some (encode (.ret ign)), .stackPointer 0⟩))

/-- The register skips: the next pc is p + 4 when the condition holds, else p + 2, and nothing else changes (R114 to
R117). The low nibble of SE_reg and SNE_reg is ignored when STRICT_DECODE = false; when it is true, a nonzero one makes
the word unsupported. -/
def Obligations.RegisterSkips : Prop :=
  ∀ (x y ign : Nibble) (nn : Byte) (s : State),
    (∃ t, exec (.seImm x nn) s = .next t ∧ s.skips t ((s.reg x).toNat = nn.toNat)) ∧
    (∃ t, exec (.sneImm x nn) s = .next t ∧ s.skips t ((s.reg x).toNat ≠ nn.toNat)) ∧
    (∃ t, exec (.seReg x y ign) s = .next t ∧ s.skips t ((s.reg x).toNat = (s.reg y).toNat)) ∧
    (∃ t, exec (.sneReg x y ign) s = .next t ∧ s.skips t ((s.reg x).toNat ≠ (s.reg y).toNat)) ∧
    ∀ i ∈ [Instr.seReg x y ign, Instr.sneReg x y ign], decode false (encode i) = .ok i ∧
      (ign ≠ 0 → decode true (encode i) = .error (.unsupportedInstruction (encode i)))

/-- A call followed, after any balanced sequence, by the matching return leaves pc = p + 2 and SP as it was (R119, which
the spec marks derived). -/
def Obligations.BalancedCallReturnsPastCallSite : Prop :=
  ∀ (nnn : Addr) (ign : Nibble) (s t u w : State), exec (.call nnn) s = .next t → t.run = .running →
    Balanced t u → exec (.ret ign) u = .next w → w.run = .running → w.pc = s.pc + 2 ∧ w.sp = s.sp

/-! ## Index register and memory -/

/-- LD I sets I to nnn; LD F sets it to V[x] × 5, unmasked (R151, R153). -/
def Obligations.IndexLoads : Prop :=
  ∀ (x : Nibble) (nnn : Addr) (s : State),
    (∃ t, exec (.ldI nnn) s = .next t ∧ t.i.toNat = nnn.toNat ∧ t.pc = s.pc + 2 ∧ s.frame [.i, .pc] t) ∧
    (∃ t, exec (.ldF x) s = .next t ∧ t.i.toNat = (s.reg x).toNat * 5 ∧ t.pc = s.pc + 2 ∧ s.frame [.i, .pc] t)

/-- ADD I, Vx wraps modulo 65536 and sets VF to 1 on 16-bit overflow, else 0; the flag is written last (R152). -/
def Obligations.AddToIndexSetsOverflow : Prop :=
  ∀ (x : Nibble) (s : State), ∃ t, exec (.addI x) s = .next t ∧
    t.i.toNat = (s.i.toNat + (s.reg x).toNat) % 65536 ∧
    (t.reg 15).toNat = (if 65536 ≤ s.i.toNat + (s.reg x).toNat then 1 else 0) ∧
    s.regsFrame [15] t ∧ t.pc = s.pc + 2 ∧ s.frame [.i, .v, .pc] t

/-- LD B stores the hundreds, tens and ones of V[x] at I, I + 1, I + 2 and changes nothing else (R154); under wrap the
addresses are modulo 4096. Under fault it raises OutOfBoundsAccess(memory, a) when I + 2 is not below 4096, a the first of
the three that is not, and writes nothing. -/
def Obligations.BcdStoresDigits : Prop :=
  ∀ (x : Nibble) (s : State),
    ((s.cfg.memOob = .fault → s.i.toNat + 2 < 4096) →
      ∃ t, exec (.ldB x) s = .next t ∧ t.pc = s.pc + 2 ∧ s.frame [.mem, .pc] t ∧
        s.storedAt t (s.address 0) [BitVec.ofNat 8 ((s.reg x).toNat / 100),
          BitVec.ofNat 8 ((s.reg x).toNat / 10 % 10), BitVec.ofNat 8 ((s.reg x).toNat % 10)]) ∧
    (s.cfg.memOob = .fault → 4096 ≤ s.i.toNat + 2 → exec (.ldB x) s = .next (s.haltedWith
      ⟨.outOfBoundsAccess, s.pc, some (encode (.ldB x)), .memoryAt (if 4096 ≤ s.i.toNat then s.i.toNat else 4096)⟩))

/-- LD [I], Vx stores V[0] to V[x] at I to I + x and changes nothing else, I included (R155). Under fault it raises
OutOfBoundsAccess(memory, a) when I + x is not below 4096, a the first address that is not, and writes nothing. -/
def Obligations.DumpStoresRegisters : Prop :=
  ∀ (x : Nibble) (s : State),
    ((s.cfg.memOob = .fault → s.i.toNat + x.val < 4096) →
      ∃ t, exec (.ldMemVx x) s = .next t ∧ t.pc = s.pc + 2 ∧ s.frame [.mem, .pc] t ∧
        (∀ r : Nibble, r ≤ x → t.memRead (s.address r.val) = s.reg r) ∧
        ∀ b, (∀ r : Nibble, r ≤ x → b % 4096 ≠ s.address r.val % 4096) → t.memRead b = s.memRead b) ∧
    (s.cfg.memOob = .fault → 4096 ≤ s.i.toNat + x.val → exec (.ldMemVx x) s = .next (s.haltedWith
      ⟨.outOfBoundsAccess, s.pc, some (encode (.ldMemVx x)),
        .memoryAt (if 4096 ≤ s.i.toNat then s.i.toNat else 4096)⟩))

/-- LD Vx, [I] loads V[0] to V[x] from I to I + x and changes nothing else, I included (R156). Under fault it raises
OutOfBoundsAccess(memory, a) when I + x is not below 4096, a the first address that is not, and writes no register. -/
def Obligations.LoadReadsRegisters : Prop :=
  ∀ (x : Nibble) (s : State),
    ((s.cfg.memOob = .fault → s.i.toNat + x.val < 4096) →
      ∃ t, exec (.ldVxMem x) s = .next t ∧ t.pc = s.pc + 2 ∧ s.frame [.v, .pc] t ∧
        ∀ r : Nibble, t.reg r = if r ≤ x then s.memRead (s.address r.val) else s.reg r) ∧
    (s.cfg.memOob = .fault → 4096 ≤ s.i.toNat + x.val → exec (.ldVxMem x) s = .next (s.haltedWith
      ⟨.outOfBoundsAccess, s.pc, some (encode (.ldVxMem x)),
        .memoryAt (if 4096 ≤ s.i.toNat then s.i.toNat else 4096)⟩))

/-- A dump followed by a load with the same count restores V[0] to V[k] and leaves I, whatever the registers hold in
between (R157, which the spec marks derived). -/
def Obligations.DumpThenLoadRestores : Prop :=
  ∀ (k : Nibble) (s t : State) (v : Vector Byte 16), s.i.toNat + k.val < 4096 → exec (.ldMemVx k) s = .next t →
    ∃ u, exec (.ldVxMem k) { t with v := v } = .next u ∧ u.i = s.i ∧ ∀ r : Nibble, r ≤ k → u.reg r = s.reg r

/-- A write to memory that holds code is seen by the next fetch (R65, which the spec marks derived): after a dump that
covers the next pc, the next fetch is the two bytes the dump stored there. -/
def Obligations.StoredCodeIsFetched : Prop :=
  ∀ (x r q : Nibble) (s t : State), s.i.toNat + x.val < 4096 → exec (.ldMemVx x) s = .next t →
    q ≤ x → q.val = r.val + 1 → t.pc.toNat = s.i.toNat + r.val →
    t.fetch = .ok (wordOfBytes (s.reg r) (s.reg q))

/-! ## Display -/

/-- CLS sets every cell to 0 and changes nothing else, VF included (R170). -/
def Obligations.ClsClearsFramebuffer : Prop :=
  ∀ (ign : Nibble) (s : State), ∃ t, exec (.cls ign) s = .next t ∧ (∀ k, t.fb.cell k = 0) ∧
    t.pc = s.pc + 2 ∧ s.frame [.fb, .pc] t

/-- DRW (R171, and R172 for the other policies). When no check fails it XORs every set bit of the sprite into the cell it
falls on and sets VF to 1 if some pixel went from set to unset, else 0; n = 0 draws nothing. Otherwise it raises
OutOfBoundsAccess for the first check that fails in loop order, the memory check of a row before its bits, and draws
nothing. -/
def Obligations.DrawXorsSpriteOrReportsFirstFailingCheck : Prop :=
  ∀ (x y n : Nibble) (s : State),
    (s.drawable (s.reg x).toNat (s.reg y).toNat n.val →
      ∃ t, exec (.drw x y n) s = .next t ∧
        (∀ k, s.covers (s.reg x).toNat (s.reg y).toNat n.val k → t.fb.cell k = s.fb.cell k ^^^ 1) ∧
        (∀ k, ¬ s.covers (s.reg x).toNat (s.reg y).toNat n.val k → t.fb.cell k = s.fb.cell k) ∧
        ((∃ k, s.covers (s.reg x).toNat (s.reg y).toNat n.val k ∧ s.fb.cell k = 1) → t.reg 15 = 1) ∧
        ((∀ k, s.covers (s.reg x).toNat (s.reg y).toNat n.val k → s.fb.cell k ≠ 1) → t.reg 15 = 0) ∧
        s.regsFrame [15] t ∧ t.pc = s.pc + 2 ∧ s.frame [.fb, .v, .pc] t) ∧
    (¬ s.drawable (s.reg x).toNat (s.reg y).toNat n.val →
      ∃ info, exec (.drw x y n) s =
          .next (s.haltedWith ⟨.outOfBoundsAccess, s.pc, some (encode (.drw x y n)), info⟩) ∧
        ∃ r < n.val, s.drawable (s.reg x).toNat (s.reg y).toNat r ∧
          ((s.outOfBounds (s.i.toNat + r) = true ∧ info = .memoryAt (s.i.toNat + r)) ∨
           (s.outOfBounds (s.i.toNat + r) = false ∧ ∃ c < 8, s.spriteBit r c = true ∧
             placePixel s.cfg.fbEdge ((s.reg x).toNat + c) ((s.reg y).toNat + r) = .outside ∧
             info = .framebufferAt ((s.reg x).toNat + c) ((s.reg y).toNat + r) ∧
             ∀ c' < c, s.spriteBit r c' = true →
               placePixel s.cfg.fbEdge ((s.reg x).toNat + c') ((s.reg y).toNat + r) ≠ .outside)))

/-- Drawing the same sprite twice at the same position restores every framebuffer cell; the second draw sets VF to 1 if
a cell the sprite covers was clear before the first draw, else 0 (R173, which the spec marks derived; for cells that were set before,
R171, log entry 9). -/
def Obligations.DoubleDrawRestores : Prop :=
  ∀ (x y n : Nibble) (s t : State), s.drawable (s.reg x).toNat (s.reg y).toNat n.val →
    exec (.drw x y n) s = .next t → t.reg x = s.reg x → t.reg y = s.reg y →
    ∃ u, exec (.drw x y n) t = .next u ∧ (∀ k, u.fb.cell k = s.fb.cell k) ∧
      ((∃ k, s.covers (s.reg x).toNat (s.reg y).toNat n.val k ∧ s.fb.cell k = 0) → u.reg 15 = 1) ∧
      ((∀ k, s.covers (s.reg x).toNat (s.reg y).toNat n.val k → s.fb.cell k = 1) → u.reg 15 = 0)

/-! ## Random, keys, timers -/

/-- RND sets V[x] to the random byte of the step AND nn, whatever the byte, and changes nothing else (R181). -/
def Obligations.RandomAndMasksRandomByte : Prop :=
  ∀ (x : Nibble) (nn b : Byte) (s : State), ∃ t, exec (.rnd x nn) (s.supplyRnd b) = .next t ∧
    t.reg x = b &&& nn ∧ s.regsFrame [x] t ∧ t.pc = s.pc + 2 ∧ s.frame [.v, .pc, .own] t ∧ t.cfg = s.cfg

/-- How the model draws the random byte, which is the model's choice (log entry 3): the next supplied byte, taken from the
queue; with none supplied the free value, whatever it is, and the counter goes on, so that each draw is another one. -/
def Obligations.RandomDrawTakesOneByte : Prop :=
  ∀ (x : Nibble) (nn : Byte) (s : State), ∃ t, exec (.rnd x nn) s = .next t ∧
    (∀ b bs, s.rndIn = b :: bs → t.reg x = b &&& nn ∧ t.rndIn = bs ∧ t.rndDraws = s.rndDraws) ∧
    (s.rndIn = [] → t.reg x = Config.freeByte s.rndDraws &&& nn ∧ t.rndIn = [] ∧ t.rndDraws = s.rndDraws + 1)

/-- A step that runs RND uses the byte the host gives with the step; a step that runs anything else, raises or waits
ignores it (R45's last paragraph). -/
def Obligations.OnlyRandomAndReadsRandomByte : Prop :=
  ∀ s : State,
    (∀ x nn b, s.run = .running → s.fetchDecode = .ok (.rnd x nn) → (hostStep s b).reg x = b &&& nn) ∧
    ((∀ x nn, s.fetchDecode ≠ .ok (.rnd x nn)) → ∀ b b', hostStep s b = hostStep s b')

/-- SKP and SKNP skip on the key V[x] names; above 15 they raise OutOfBoundsAccess(keys, V[x]) and keep no change (R180,
R182, R183). -/
def Obligations.KeySkips : Prop :=
  ∀ (x : Nibble) (s : State),
    (∀ k : Fin 16, (s.reg x).toNat = k.val →
      (∃ t, exec (.skp x) s = .next t ∧ s.skips t (s.key[k] = true)) ∧
      (∃ t, exec (.sknp x) s = .next t ∧ s.skips t (s.key[k] = false))) ∧
    (15 < (s.reg x).toNat → ∀ i ∈ [Instr.skp x, Instr.sknp x], exec i s = .next (s.haltedWith
      ⟨.outOfBoundsAccess, s.pc, some (encode i), .keyAt (s.reg x).toNat⟩))

/-- LD Vx, K sets V[x] to the least pressed key and goes on; with no key pressed it changes nothing, so that the same
instruction runs again (R185). -/
def Obligations.WaitForKeyTakesLeastKey : Prop :=
  ∀ (x : Nibble) (s : State),
    (∀ k : Fin 16, s.key[k] = true → (∀ j : Fin 16, j < k → s.key[j] = false) →
      ∃ t, exec (.ldVxK x) s = .next t ∧ s.resultOnly t x (BitVec.ofNat 8 k.val)) ∧
    ((∀ j : Fin 16, s.key[j] = false) → exec (.ldVxK x) s = .next s)

/-- LD DT, Vx and LD ST, Vx set the timers and change nothing else (R186, R187). -/
def Obligations.TimerLoads : Prop :=
  ∀ (x : Nibble) (s : State),
    (∃ t, exec (.ldDtVx x) s = .next t ∧ t.dt = s.reg x ∧ t.pc = s.pc + 2 ∧ s.frame [.dt, .pc] t) ∧
    (∃ t, exec (.ldStVx x) s = .next t ∧ t.st = s.reg x ∧ t.pc = s.pc + 2 ∧ s.frame [.st, .pc] t)

/-- A tick lowers each nonzero timer by 1, leaves a zero one at 0, changes nothing else, and beeps exactly when ST was 1;
while Halted it does nothing and returns false (R210, R211, R213). -/
def Obligations.TickCountsDown : Prop :=
  ∀ s : State,
    (s.run = .running → s.tick.dt.toNat = s.dt.toNat - 1 ∧ s.tick.st.toNat = s.st.toNat - 1 ∧
      s.frame [.dt, .st] s.tick ∧ (s.tickResult = true ↔ s.st.toNat = 1)) ∧
    (s.run = .halted → s.tick = s ∧ s.tickResult = false)

/-- ST = n > 0 followed by n ticks emits one beep, on the n-th, and a tick with ST = 0 emits none (R212). -/
def Obligations.OneBeepOnLastTick : Prop :=
  ∀ (s : State) (j : Nat), s.run = .running →
    ((State.tick^[j] s).tickResult = true ↔ j + 1 = s.st.toNat) ∧ (State.tick^[j] s).st.toNat = s.st.toNat - j

/-! ## Reset and the host's operations -/

/-- After reset with an image of at most 3584 bytes every element holds its reset value, memory holds the font, the image
from 0x200 and zeros, and the host is answered ok (R44, R230, R231). -/
def Obligations.ResetLeavesResetState : Prop :=
  ∀ (s : State) (image : List Byte), image.length ≤ 3584 →
    let t := s.resetWith (some image)
    (∀ a < 4096, t.memRead a =
      if h : 0x200 ≤ a ∧ a < 0x200 + image.length then image[a - 0x200]'(by omega)
      else if h : a < 80 then s.cfg.font[a] else 0) ∧
    (∀ r : Nibble, t.reg r = 0 ∧ t.stack[r] = 0 ∧ t.key[r] = false) ∧ (∀ k, t.fb.cell k = 0) ∧
    t.i = 0 ∧ t.pc = 0x200 ∧ t.sp.val = 0 ∧ t.dt = 0 ∧ t.st = 0 ∧ t.run = .running ∧ t.err = none ∧
    resetResult (some image) = .ok

/-- A missing image or one over 3584 bytes is refused: the reset state without the image, Halted with ProgramLoadError
and the length, which every step returns and no tick changes (R232, R233). -/
def Obligations.RefusedLoadHalts : Prop :=
  ∀ (s : State) (image : Option (List Byte)) (b : Byte), (∀ l, image = some l → 3584 < l.length) →
    let t := s.resetWith image
    t = (s.resetWith (some [])).haltedWith
      ⟨.programLoadError, 0x200, none, .imageLength ((image.map List.length).getD 0)⟩ ∧
    resetResult image = .programLoadError ∧
    step t = .next t ∧ hostStep t b = t ∧ stepResult t = .error t.err ∧ t.tick = t ∧ t.tickResult = false

/-- After reset with an empty image the first step fetches 0x0000 from 0x200 and raises UnsupportedInstruction (R234, which the
spec marks derived). -/
def Obligations.EmptyImageRaisesUnsupported : Prop :=
  ∀ s : State, resetResult (some []) = .ok ∧ (s.resetWith (some [])).run = .running ∧
    step (s.resetWith (some [])) = .next ((s.resetWith (some [])).haltedWith
      ⟨.unsupportedInstruction, 0x200, some 0x0000, .noInfo⟩)

/-- setKeys sets every key from its bit and changes nothing else (R45). -/
def Obligations.SetKeysWritesOnlyKeys : Prop :=
  ∀ (s : State) (k : Word), (∀ j : Fin 16, (s.setKeys k).key[j] = k.getLsbD j.val) ∧ s.frame [.key] (s.setKeys k)

/-! ## The double draw where R173 and R171 agree -/

/-- Over cells that are clear before the first draw, and where no set bit is clipped away, the second of two identical
draws restores every cell and sets VF to 1 if the sprite has at least one set bit in its n rows, else 0: R173 as it
stands. The two hypotheses are those under which R171 gives what R173, which the spec marks derived from it, says (log
entry 9). -/
def Obligations.SecondDrawOverClearCellsCollides : Prop :=
  ∀ (x y n : Nibble) (s t : State), s.drawable (s.reg x).toNat (s.reg y).toNat n.val → s.cfg.fbEdge ≠ .clip →
    (∀ k, s.covers (s.reg x).toNat (s.reg y).toNat n.val k → s.fb.cell k = 0) →
    exec (.drw x y n) s = .next t → t.reg x = s.reg x → t.reg y = s.reg y →
    t.reg 15 = 0 ∧ ∃ u, exec (.drw x y n) t = .next u ∧ (∀ k, u.fb.cell k = s.fb.cell k) ∧
      ((∃ r < n.val, ∃ c < 8, s.spriteBit r c = true) → u.reg 15 = 1) ∧
      ((∀ r < n.val, ∀ c < 8, s.spriteBit r c = false) → u.reg 15 = 0)
end

