-- ==== Sys2Proof/Laws/Cells.lean ====
section
/-! SUPPORT. The laws of cells: what a read after a write gives, and that a write keeps the canonical form. -/

namespace Sys2Proof.Machine

theorem Cells.read_filter_same (bg : Nat → Byte) (m : List Host.Cell) (a : Nat) :
    Cells.read bg (m.filter fun c => c.1 != a) a = bg a := by
  induction m with
  | nil => rfl
  | cons c m ih =>
    by_cases h : c.1 = a
    · simp [h, ih]
    · simp [h, Cells.read, ih]

theorem Cells.read_filter_other (bg : Nat → Byte) (m : List Host.Cell) {a b : Nat} (hab : b ≠ a) :
    Cells.read bg (m.filter fun c => c.1 != a) b = Cells.read bg m b := by
  induction m with
  | nil => rfl
  | cons c m ih =>
    by_cases h : c.1 = a
    · have : a ≠ b := fun e => hab e.symm
      simp [h, ih, Cells.read, this]
    · simp [h, Cells.read, ih]

theorem Cells.read_insert (bg : Nat → Byte) (m : List Host.Cell) (a b : Nat) (v : Byte)
    (hm : ∀ c ∈ m, c.1 ≠ a) :
    Cells.read bg (Cells.insert a v m) b = if b = a then v else Cells.read bg m b := by
  induction m with
  | nil => simp [Cells.insert, Cells.read, eq_comm]
  | cons c m ih =>
    have hc : c.1 ≠ a := hm c (by simp)
    have ih := ih fun d hd => hm d (by simp [hd])
    unfold Cells.insert
    split
    · simp [Cells.read, eq_comm]
    · simp only [Cells.read, ih]
      by_cases hb : c.1 = b
      · have : b ≠ a := fun e => hc (hb.trans e)
        simp [hb, this]
      · simp [hb]

/-- A read after a write: the byte written at its address, and every other address as before. -/
theorem Cells.read_write (bg : Nat → Byte) (m : List Host.Cell) (a b : Nat) (v : Byte) :
    Cells.read bg (Cells.write bg m a v) b = if b = a then v else Cells.read bg m b := by
  unfold Cells.write
  by_cases hb : b = a
  · subst hb
    by_cases hv : v = bg b
    · simp [hv, Cells.read_filter_same]
    · rw [if_neg hv, Cells.read_insert _ _ _ _ _ (by simp)]
      simp
  · by_cases hv : v = bg a
    · simp [hv, Cells.read_filter_other, hb]
    · rw [if_neg hv, Cells.read_insert _ _ _ _ _ (by simp)]
      simp [hb, Cells.read_filter_other]

theorem Cells.mem_insert {a : Nat} {v : Byte} {m : List Host.Cell} {c : Host.Cell} :
    c ∈ Cells.insert a v m ↔ c = (a, v) ∨ c ∈ m := by
  induction m with
  | nil => simp [Cells.insert]
  | cons d m ih =>
    unfold Cells.insert
    split
    · simp
    · simp only [List.mem_cons, ih]; tauto

theorem Cells.insert_pairwise {a : Nat} {v : Byte} {m : List Host.Cell}
    (h : m.Pairwise fun c d => c.1 < d.1) (ha : ∀ c ∈ m, c.1 ≠ a) :
    (Cells.insert a v m).Pairwise fun c d => c.1 < d.1 := by
  induction m with
  | nil => simp [Cells.insert]
  | cons d m ih =>
    obtain ⟨hd, hm⟩ := List.pairwise_cons.1 h
    have hda : d.1 ≠ a := ha d (by simp)
    unfold Cells.insert
    split
    · rename_i hlt
      refine List.pairwise_cons.2 ⟨fun c hc => ?_, h⟩
      obtain rfl | hc := List.mem_cons.1 hc
      · exact hlt
      · exact Nat.lt_trans hlt (hd c hc)
    · rename_i hlt
      refine List.pairwise_cons.2 ⟨fun c hc => ?_, ih hm fun c hc => ha c (by simp [hc])⟩
      obtain rfl | hc := Cells.mem_insert.1 hc
      · show d.1 < a
        omega
      · exact hd c hc

/-- The cells after a write: the one written, if it differs from the background, and the others as before. -/
theorem Cells.mem_write {bg : Nat → Byte} {m : List Host.Cell} {a : Nat} {v : Byte} {c : Host.Cell} :
    c ∈ Cells.write bg m a v ↔ (c = (a, v) ∧ v ≠ bg a) ∨ (c ∈ m ∧ c.1 ≠ a) := by
  unfold Cells.write
  by_cases hv : v = bg a
  · simp [hv]
  · simp [hv, Cells.mem_insert]

/-- A write below the size keeps the canonical form. -/
theorem Cells.write_wf {bg : Nat → Byte} {size : Nat} {m : List Host.Cell} {a : Nat} {v : Byte}
    (h : Cells.wf bg size m) (ha : a < size) : Cells.wf bg size (Cells.write bg m a v) := by
  constructor
  · unfold Cells.write
    by_cases hv : v = bg a
    · simpa [hv] using h.1.filter _
    · rw [if_neg hv]
      exact Cells.insert_pairwise (h.1.filter _) (by simp)
  · intro c hc
    obtain ⟨rfl, hv⟩ | ⟨hc, -⟩ := Cells.mem_write.1 hc
    · exact ⟨ha, hv⟩
    · exact h.2 c hc

/-- Reading where no cell is listed gives the background. -/
theorem Cells.read_unlisted {bg : Nat → Byte} {m : List Host.Cell} {a : Nat} (h : ∀ c ∈ m, c.1 ≠ a) :
    Cells.read bg m a = bg a := by
  induction m with
  | nil => rfl
  | cons c m ih =>
    have hc : c.1 ≠ a := h c (by simp)
    simp [Cells.read, hc, ih fun d hd => h d (by simp [hd])]

/-- A read gives the background or a listed byte. -/
theorem Cells.read_cases (bg : Nat → Byte) (m : List Host.Cell) (a : Nat) :
    Cells.read bg m a = bg a ∨ ∃ c ∈ m, c.1 = a ∧ Cells.read bg m a = c.2 := by
  induction m with
  | nil => exact .inl rfl
  | cons c m ih =>
    by_cases hc : c.1 = a
    · exact .inr ⟨c, by simp, hc, by simp [Cells.read, hc]⟩
    · obtain h | ⟨d, hd, hda, h⟩ := ih
      · exact .inl (by simp [Cells.read, hc, h])
      · exact .inr ⟨d, by simp [hd], hda, by simp [Cells.read, hc, h]⟩

/-- Cells in canonical form that read the same everywhere are the same list. -/
theorem Cells.eq_of_read_eq {bg : Nat → Byte} {size : Nat} {m n : List Host.Cell} (hm : Cells.wf bg size m)
    (hn : Cells.wf bg size n) (h : ∀ a, Cells.read bg m a = Cells.read bg n a) : m = n := by
  induction m generalizing n with
  | nil =>
    cases n with
    | nil => rfl
    | cons d n =>
      have := h d.1
      simp only [Cells.read, if_pos] at this
      exact absurd this.symm (hn.2 d (by simp)).2
  | cons c m ih =>
    cases n with
    | nil =>
      have := h c.1
      simp only [Cells.read, if_pos] at this
      exact absurd this (hm.2 c (by simp)).2
    | cons d n =>
      obtain ⟨hc, hm1⟩ := List.pairwise_cons.1 hm.1
      obtain ⟨hd, hn1⟩ := List.pairwise_cons.1 hn.1
      have hcm : ∀ a, a ≤ c.1 → Cells.read bg m a = bg a := fun a ha =>
        Cells.read_unlisted fun e he => by have := hc e he; omega
      have hdn : ∀ a, a ≤ d.1 → Cells.read bg n a = bg a := fun a ha =>
        Cells.read_unlisted fun e he => by have := hd e he; omega
      have hcd : c.1 = d.1 := by
        rcases Nat.lt_trichotomy c.1 d.1 with hlt | heq | hlt
        · have := h c.1
          have hne : d.1 ≠ c.1 := by omega
          simp only [Cells.read, if_pos, if_neg hne, hdn c.1 (by omega)] at this
          exact absurd this (hm.2 c (by simp)).2
        · exact heq
        · have := h d.1
          have hne : c.1 ≠ d.1 := by omega
          simp only [Cells.read, if_pos, if_neg hne, hcm d.1 (by omega)] at this
          exact absurd this.symm (hn.2 d (by simp)).2
      have hv : c.2 = d.2 := by
        have := h c.1
        simpa [Cells.read, hcd] using this
      have htail : m = n := by
        refine ih ⟨hm1, fun e he => hm.2 e (by simp [he])⟩ ⟨hn1, fun e he => hn.2 e (by simp [he])⟩ fun a => ?_
        by_cases ha : c.1 = a
        · rw [hcm a (by omega), hdn a (by omega)]
        · have := h a
          simpa [Cells.read, ha, ← hcd] using this
      rw [htail, Prod.ext hcd hv]

end Sys2Proof.Machine
end

