-- ==== Sys2Proof/Laws/State.lean ====
section
/-! SUPPORT. One lemma per field per update of the state, each true by rfl. -/

namespace Sys2Proof.Machine

/-! ## memWrite -/

@[simp] theorem State.memWrite_mem (s : State) (a : Nat) (b : Byte) :
    (s.memWrite a b).mem = Cells.write (Memory.background s.cfg.font) s.mem (a % 4096) b := rfl
@[simp] theorem State.memWrite_v (s : State) (a : Nat) (b : Byte) : (s.memWrite a b).v = s.v := rfl
@[simp] theorem State.memWrite_i (s : State) (a : Nat) (b : Byte) : (s.memWrite a b).i = s.i := rfl
@[simp] theorem State.memWrite_pc (s : State) (a : Nat) (b : Byte) : (s.memWrite a b).pc = s.pc := rfl
@[simp] theorem State.memWrite_stack (s : State) (a : Nat) (b : Byte) : (s.memWrite a b).stack = s.stack := rfl
@[simp] theorem State.memWrite_sp (s : State) (a : Nat) (b : Byte) : (s.memWrite a b).sp = s.sp := rfl
@[simp] theorem State.memWrite_fb (s : State) (a : Nat) (b : Byte) : (s.memWrite a b).fb = s.fb := rfl
@[simp] theorem State.memWrite_dt (s : State) (a : Nat) (b : Byte) : (s.memWrite a b).dt = s.dt := rfl
@[simp] theorem State.memWrite_st (s : State) (a : Nat) (b : Byte) : (s.memWrite a b).st = s.st := rfl
@[simp] theorem State.memWrite_key (s : State) (a : Nat) (b : Byte) : (s.memWrite a b).key = s.key := rfl
@[simp] theorem State.memWrite_run (s : State) (a : Nat) (b : Byte) : (s.memWrite a b).run = s.run := rfl
@[simp] theorem State.memWrite_err (s : State) (a : Nat) (b : Byte) : (s.memWrite a b).err = s.err := rfl
@[simp] theorem State.memWrite_rndIn (s : State) (a : Nat) (b : Byte) : (s.memWrite a b).rndIn = s.rndIn := rfl
@[simp] theorem State.memWrite_rndDraws (s : State) (a : Nat) (b : Byte) :
    (s.memWrite a b).rndDraws = s.rndDraws := rfl
@[simp] theorem State.memWrite_cfg (s : State) (a : Nat) (b : Byte) : (s.memWrite a b).cfg = s.cfg := rfl

/-! ## setReg -/

@[simp] theorem State.setReg_mem (s : State) (x : Nibble) (b : Byte) : (s.setReg x b).mem = s.mem := rfl
@[simp] theorem State.setReg_v (s : State) (x : Nibble) (b : Byte) : (s.setReg x b).v = s.v.set x b := rfl
@[simp] theorem State.setReg_i (s : State) (x : Nibble) (b : Byte) : (s.setReg x b).i = s.i := rfl
@[simp] theorem State.setReg_pc (s : State) (x : Nibble) (b : Byte) : (s.setReg x b).pc = s.pc := rfl
@[simp] theorem State.setReg_stack (s : State) (x : Nibble) (b : Byte) : (s.setReg x b).stack = s.stack := rfl
@[simp] theorem State.setReg_sp (s : State) (x : Nibble) (b : Byte) : (s.setReg x b).sp = s.sp := rfl
@[simp] theorem State.setReg_fb (s : State) (x : Nibble) (b : Byte) : (s.setReg x b).fb = s.fb := rfl
@[simp] theorem State.setReg_dt (s : State) (x : Nibble) (b : Byte) : (s.setReg x b).dt = s.dt := rfl
@[simp] theorem State.setReg_st (s : State) (x : Nibble) (b : Byte) : (s.setReg x b).st = s.st := rfl
@[simp] theorem State.setReg_key (s : State) (x : Nibble) (b : Byte) : (s.setReg x b).key = s.key := rfl
@[simp] theorem State.setReg_run (s : State) (x : Nibble) (b : Byte) : (s.setReg x b).run = s.run := rfl
@[simp] theorem State.setReg_err (s : State) (x : Nibble) (b : Byte) : (s.setReg x b).err = s.err := rfl
@[simp] theorem State.setReg_rndIn (s : State) (x : Nibble) (b : Byte) : (s.setReg x b).rndIn = s.rndIn := rfl
@[simp] theorem State.setReg_rndDraws (s : State) (x : Nibble) (b : Byte) :
    (s.setReg x b).rndDraws = s.rndDraws := rfl
@[simp] theorem State.setReg_cfg (s : State) (x : Nibble) (b : Byte) : (s.setReg x b).cfg = s.cfg := rfl

/-! ## setFlag -/

@[simp] theorem State.setFlag_mem (s : State) (b : Byte) : (s.setFlag b).mem = s.mem := rfl
@[simp] theorem State.setFlag_v (s : State) (b : Byte) : (s.setFlag b).v = s.v.set 15 b := rfl
@[simp] theorem State.setFlag_i (s : State) (b : Byte) : (s.setFlag b).i = s.i := rfl
@[simp] theorem State.setFlag_pc (s : State) (b : Byte) : (s.setFlag b).pc = s.pc := rfl
@[simp] theorem State.setFlag_stack (s : State) (b : Byte) : (s.setFlag b).stack = s.stack := rfl
@[simp] theorem State.setFlag_sp (s : State) (b : Byte) : (s.setFlag b).sp = s.sp := rfl
@[simp] theorem State.setFlag_fb (s : State) (b : Byte) : (s.setFlag b).fb = s.fb := rfl
@[simp] theorem State.setFlag_dt (s : State) (b : Byte) : (s.setFlag b).dt = s.dt := rfl
@[simp] theorem State.setFlag_st (s : State) (b : Byte) : (s.setFlag b).st = s.st := rfl
@[simp] theorem State.setFlag_key (s : State) (b : Byte) : (s.setFlag b).key = s.key := rfl
@[simp] theorem State.setFlag_run (s : State) (b : Byte) : (s.setFlag b).run = s.run := rfl
@[simp] theorem State.setFlag_err (s : State) (b : Byte) : (s.setFlag b).err = s.err := rfl
@[simp] theorem State.setFlag_rndIn (s : State) (b : Byte) : (s.setFlag b).rndIn = s.rndIn := rfl
@[simp] theorem State.setFlag_rndDraws (s : State) (b : Byte) : (s.setFlag b).rndDraws = s.rndDraws := rfl
@[simp] theorem State.setFlag_cfg (s : State) (b : Byte) : (s.setFlag b).cfg = s.cfg := rfl

/-! ## setIndex -/

@[simp] theorem State.setIndex_mem (s : State) (w : Word) : (s.setIndex w).mem = s.mem := rfl
@[simp] theorem State.setIndex_v (s : State) (w : Word) : (s.setIndex w).v = s.v := rfl
@[simp] theorem State.setIndex_i (s : State) (w : Word) : (s.setIndex w).i = w := rfl
@[simp] theorem State.setIndex_pc (s : State) (w : Word) : (s.setIndex w).pc = s.pc := rfl
@[simp] theorem State.setIndex_stack (s : State) (w : Word) : (s.setIndex w).stack = s.stack := rfl
@[simp] theorem State.setIndex_sp (s : State) (w : Word) : (s.setIndex w).sp = s.sp := rfl
@[simp] theorem State.setIndex_fb (s : State) (w : Word) : (s.setIndex w).fb = s.fb := rfl
@[simp] theorem State.setIndex_dt (s : State) (w : Word) : (s.setIndex w).dt = s.dt := rfl
@[simp] theorem State.setIndex_st (s : State) (w : Word) : (s.setIndex w).st = s.st := rfl
@[simp] theorem State.setIndex_key (s : State) (w : Word) : (s.setIndex w).key = s.key := rfl
@[simp] theorem State.setIndex_run (s : State) (w : Word) : (s.setIndex w).run = s.run := rfl
@[simp] theorem State.setIndex_err (s : State) (w : Word) : (s.setIndex w).err = s.err := rfl
@[simp] theorem State.setIndex_rndIn (s : State) (w : Word) : (s.setIndex w).rndIn = s.rndIn := rfl
@[simp] theorem State.setIndex_rndDraws (s : State) (w : Word) : (s.setIndex w).rndDraws = s.rndDraws := rfl
@[simp] theorem State.setIndex_cfg (s : State) (w : Word) : (s.setIndex w).cfg = s.cfg := rfl

/-! ## setPc -/

@[simp] theorem State.setPc_mem (s : State) (w : Word) : (s.setPc w).mem = s.mem := rfl
@[simp] theorem State.setPc_v (s : State) (w : Word) : (s.setPc w).v = s.v := rfl
@[simp] theorem State.setPc_i (s : State) (w : Word) : (s.setPc w).i = s.i := rfl
@[simp] theorem State.setPc_pc (s : State) (w : Word) : (s.setPc w).pc = w := rfl
@[simp] theorem State.setPc_stack (s : State) (w : Word) : (s.setPc w).stack = s.stack := rfl
@[simp] theorem State.setPc_sp (s : State) (w : Word) : (s.setPc w).sp = s.sp := rfl
@[simp] theorem State.setPc_fb (s : State) (w : Word) : (s.setPc w).fb = s.fb := rfl
@[simp] theorem State.setPc_dt (s : State) (w : Word) : (s.setPc w).dt = s.dt := rfl
@[simp] theorem State.setPc_st (s : State) (w : Word) : (s.setPc w).st = s.st := rfl
@[simp] theorem State.setPc_key (s : State) (w : Word) : (s.setPc w).key = s.key := rfl
@[simp] theorem State.setPc_run (s : State) (w : Word) : (s.setPc w).run = s.run := rfl
@[simp] theorem State.setPc_err (s : State) (w : Word) : (s.setPc w).err = s.err := rfl
@[simp] theorem State.setPc_rndIn (s : State) (w : Word) : (s.setPc w).rndIn = s.rndIn := rfl
@[simp] theorem State.setPc_rndDraws (s : State) (w : Word) : (s.setPc w).rndDraws = s.rndDraws := rfl
@[simp] theorem State.setPc_cfg (s : State) (w : Word) : (s.setPc w).cfg = s.cfg := rfl

/-! ## nextInstr -/

@[simp] theorem State.nextInstr_mem (s : State) : s.nextInstr.mem = s.mem := rfl
@[simp] theorem State.nextInstr_v (s : State) : s.nextInstr.v = s.v := rfl
@[simp] theorem State.nextInstr_i (s : State) : s.nextInstr.i = s.i := rfl
@[simp] theorem State.nextInstr_pc (s : State) : s.nextInstr.pc = s.pc + 2 := rfl
@[simp] theorem State.nextInstr_stack (s : State) : s.nextInstr.stack = s.stack := rfl
@[simp] theorem State.nextInstr_sp (s : State) : s.nextInstr.sp = s.sp := rfl
@[simp] theorem State.nextInstr_fb (s : State) : s.nextInstr.fb = s.fb := rfl
@[simp] theorem State.nextInstr_dt (s : State) : s.nextInstr.dt = s.dt := rfl
@[simp] theorem State.nextInstr_st (s : State) : s.nextInstr.st = s.st := rfl
@[simp] theorem State.nextInstr_key (s : State) : s.nextInstr.key = s.key := rfl
@[simp] theorem State.nextInstr_run (s : State) : s.nextInstr.run = s.run := rfl
@[simp] theorem State.nextInstr_err (s : State) : s.nextInstr.err = s.err := rfl
@[simp] theorem State.nextInstr_rndIn (s : State) : s.nextInstr.rndIn = s.rndIn := rfl
@[simp] theorem State.nextInstr_rndDraws (s : State) : s.nextInstr.rndDraws = s.rndDraws := rfl
@[simp] theorem State.nextInstr_cfg (s : State) : s.nextInstr.cfg = s.cfg := rfl

/-! ## skipInstr -/

@[simp] theorem State.skipInstr_mem (s : State) : s.skipInstr.mem = s.mem := rfl
@[simp] theorem State.skipInstr_v (s : State) : s.skipInstr.v = s.v := rfl
@[simp] theorem State.skipInstr_i (s : State) : s.skipInstr.i = s.i := rfl
@[simp] theorem State.skipInstr_pc (s : State) : s.skipInstr.pc = s.pc + 4 := rfl
@[simp] theorem State.skipInstr_stack (s : State) : s.skipInstr.stack = s.stack := rfl
@[simp] theorem State.skipInstr_sp (s : State) : s.skipInstr.sp = s.sp := rfl
@[simp] theorem State.skipInstr_fb (s : State) : s.skipInstr.fb = s.fb := rfl
@[simp] theorem State.skipInstr_dt (s : State) : s.skipInstr.dt = s.dt := rfl
@[simp] theorem State.skipInstr_st (s : State) : s.skipInstr.st = s.st := rfl
@[simp] theorem State.skipInstr_key (s : State) : s.skipInstr.key = s.key := rfl
@[simp] theorem State.skipInstr_run (s : State) : s.skipInstr.run = s.run := rfl
@[simp] theorem State.skipInstr_err (s : State) : s.skipInstr.err = s.err := rfl
@[simp] theorem State.skipInstr_rndIn (s : State) : s.skipInstr.rndIn = s.rndIn := rfl
@[simp] theorem State.skipInstr_rndDraws (s : State) : s.skipInstr.rndDraws = s.rndDraws := rfl
@[simp] theorem State.skipInstr_cfg (s : State) : s.skipInstr.cfg = s.cfg := rfl

/-! ## setFb -/

@[simp] theorem State.setFb_mem (s : State) (f : Framebuffer) : (s.setFb f).mem = s.mem := rfl
@[simp] theorem State.setFb_v (s : State) (f : Framebuffer) : (s.setFb f).v = s.v := rfl
@[simp] theorem State.setFb_i (s : State) (f : Framebuffer) : (s.setFb f).i = s.i := rfl
@[simp] theorem State.setFb_pc (s : State) (f : Framebuffer) : (s.setFb f).pc = s.pc := rfl
@[simp] theorem State.setFb_stack (s : State) (f : Framebuffer) : (s.setFb f).stack = s.stack := rfl
@[simp] theorem State.setFb_sp (s : State) (f : Framebuffer) : (s.setFb f).sp = s.sp := rfl
@[simp] theorem State.setFb_fb (s : State) (f : Framebuffer) : (s.setFb f).fb = f := rfl
@[simp] theorem State.setFb_dt (s : State) (f : Framebuffer) : (s.setFb f).dt = s.dt := rfl
@[simp] theorem State.setFb_st (s : State) (f : Framebuffer) : (s.setFb f).st = s.st := rfl
@[simp] theorem State.setFb_key (s : State) (f : Framebuffer) : (s.setFb f).key = s.key := rfl
@[simp] theorem State.setFb_run (s : State) (f : Framebuffer) : (s.setFb f).run = s.run := rfl
@[simp] theorem State.setFb_err (s : State) (f : Framebuffer) : (s.setFb f).err = s.err := rfl
@[simp] theorem State.setFb_rndIn (s : State) (f : Framebuffer) : (s.setFb f).rndIn = s.rndIn := rfl
@[simp] theorem State.setFb_rndDraws (s : State) (f : Framebuffer) : (s.setFb f).rndDraws = s.rndDraws := rfl
@[simp] theorem State.setFb_cfg (s : State) (f : Framebuffer) : (s.setFb f).cfg = s.cfg := rfl

/-! ## setKeys -/

@[simp] theorem State.setKeys_mem (s : State) (k : Word) : (s.setKeys k).mem = s.mem := rfl
@[simp] theorem State.setKeys_v (s : State) (k : Word) : (s.setKeys k).v = s.v := rfl
@[simp] theorem State.setKeys_i (s : State) (k : Word) : (s.setKeys k).i = s.i := rfl
@[simp] theorem State.setKeys_pc (s : State) (k : Word) : (s.setKeys k).pc = s.pc := rfl
@[simp] theorem State.setKeys_stack (s : State) (k : Word) : (s.setKeys k).stack = s.stack := rfl
@[simp] theorem State.setKeys_sp (s : State) (k : Word) : (s.setKeys k).sp = s.sp := rfl
@[simp] theorem State.setKeys_fb (s : State) (k : Word) : (s.setKeys k).fb = s.fb := rfl
@[simp] theorem State.setKeys_dt (s : State) (k : Word) : (s.setKeys k).dt = s.dt := rfl
@[simp] theorem State.setKeys_st (s : State) (k : Word) : (s.setKeys k).st = s.st := rfl
@[simp] theorem State.setKeys_key (s : State) (k : Word) :
    (s.setKeys k).key = Vector.ofFn fun j => k.getLsbD j.val := rfl
@[simp] theorem State.setKeys_run (s : State) (k : Word) : (s.setKeys k).run = s.run := rfl
@[simp] theorem State.setKeys_err (s : State) (k : Word) : (s.setKeys k).err = s.err := rfl
@[simp] theorem State.setKeys_rndIn (s : State) (k : Word) : (s.setKeys k).rndIn = s.rndIn := rfl
@[simp] theorem State.setKeys_rndDraws (s : State) (k : Word) : (s.setKeys k).rndDraws = s.rndDraws := rfl
@[simp] theorem State.setKeys_cfg (s : State) (k : Word) : (s.setKeys k).cfg = s.cfg := rfl

/-! ## setDt -/

@[simp] theorem State.setDt_mem (s : State) (b : Byte) : (s.setDt b).mem = s.mem := rfl
@[simp] theorem State.setDt_v (s : State) (b : Byte) : (s.setDt b).v = s.v := rfl
@[simp] theorem State.setDt_i (s : State) (b : Byte) : (s.setDt b).i = s.i := rfl
@[simp] theorem State.setDt_pc (s : State) (b : Byte) : (s.setDt b).pc = s.pc := rfl
@[simp] theorem State.setDt_stack (s : State) (b : Byte) : (s.setDt b).stack = s.stack := rfl
@[simp] theorem State.setDt_sp (s : State) (b : Byte) : (s.setDt b).sp = s.sp := rfl
@[simp] theorem State.setDt_fb (s : State) (b : Byte) : (s.setDt b).fb = s.fb := rfl
@[simp] theorem State.setDt_dt (s : State) (b : Byte) : (s.setDt b).dt = b := rfl
@[simp] theorem State.setDt_st (s : State) (b : Byte) : (s.setDt b).st = s.st := rfl
@[simp] theorem State.setDt_key (s : State) (b : Byte) : (s.setDt b).key = s.key := rfl
@[simp] theorem State.setDt_run (s : State) (b : Byte) : (s.setDt b).run = s.run := rfl
@[simp] theorem State.setDt_err (s : State) (b : Byte) : (s.setDt b).err = s.err := rfl
@[simp] theorem State.setDt_rndIn (s : State) (b : Byte) : (s.setDt b).rndIn = s.rndIn := rfl
@[simp] theorem State.setDt_rndDraws (s : State) (b : Byte) : (s.setDt b).rndDraws = s.rndDraws := rfl
@[simp] theorem State.setDt_cfg (s : State) (b : Byte) : (s.setDt b).cfg = s.cfg := rfl

/-! ## setSt -/

@[simp] theorem State.setSt_mem (s : State) (b : Byte) : (s.setSt b).mem = s.mem := rfl
@[simp] theorem State.setSt_v (s : State) (b : Byte) : (s.setSt b).v = s.v := rfl
@[simp] theorem State.setSt_i (s : State) (b : Byte) : (s.setSt b).i = s.i := rfl
@[simp] theorem State.setSt_pc (s : State) (b : Byte) : (s.setSt b).pc = s.pc := rfl
@[simp] theorem State.setSt_stack (s : State) (b : Byte) : (s.setSt b).stack = s.stack := rfl
@[simp] theorem State.setSt_sp (s : State) (b : Byte) : (s.setSt b).sp = s.sp := rfl
@[simp] theorem State.setSt_fb (s : State) (b : Byte) : (s.setSt b).fb = s.fb := rfl
@[simp] theorem State.setSt_dt (s : State) (b : Byte) : (s.setSt b).dt = s.dt := rfl
@[simp] theorem State.setSt_st (s : State) (b : Byte) : (s.setSt b).st = b := rfl
@[simp] theorem State.setSt_key (s : State) (b : Byte) : (s.setSt b).key = s.key := rfl
@[simp] theorem State.setSt_run (s : State) (b : Byte) : (s.setSt b).run = s.run := rfl
@[simp] theorem State.setSt_err (s : State) (b : Byte) : (s.setSt b).err = s.err := rfl
@[simp] theorem State.setSt_rndIn (s : State) (b : Byte) : (s.setSt b).rndIn = s.rndIn := rfl
@[simp] theorem State.setSt_rndDraws (s : State) (b : Byte) : (s.setSt b).rndDraws = s.rndDraws := rfl
@[simp] theorem State.setSt_cfg (s : State) (b : Byte) : (s.setSt b).cfg = s.cfg := rfl

/-! ## tickBody -/

@[simp] theorem State.tickBody_mem (s : State) : s.tickBody.mem = s.mem := rfl
@[simp] theorem State.tickBody_v (s : State) : s.tickBody.v = s.v := rfl
@[simp] theorem State.tickBody_i (s : State) : s.tickBody.i = s.i := rfl
@[simp] theorem State.tickBody_pc (s : State) : s.tickBody.pc = s.pc := rfl
@[simp] theorem State.tickBody_stack (s : State) : s.tickBody.stack = s.stack := rfl
@[simp] theorem State.tickBody_sp (s : State) : s.tickBody.sp = s.sp := rfl
@[simp] theorem State.tickBody_fb (s : State) : s.tickBody.fb = s.fb := rfl
@[simp] theorem State.tickBody_dt (s : State) : s.tickBody.dt = countDown s.dt := rfl
@[simp] theorem State.tickBody_st (s : State) : s.tickBody.st = countDown s.st := rfl
@[simp] theorem State.tickBody_key (s : State) : s.tickBody.key = s.key := rfl
@[simp] theorem State.tickBody_run (s : State) : s.tickBody.run = s.run := rfl
@[simp] theorem State.tickBody_err (s : State) : s.tickBody.err = s.err := rfl
@[simp] theorem State.tickBody_rndIn (s : State) : s.tickBody.rndIn = s.rndIn := rfl
@[simp] theorem State.tickBody_rndDraws (s : State) : s.tickBody.rndDraws = s.rndDraws := rfl
@[simp] theorem State.tickBody_cfg (s : State) : s.tickBody.cfg = s.cfg := rfl

/-! ## raise -/

@[simp] theorem State.raise_mem (s : State) (k : ErrKind) (w : Option Word) (e : ErrInfo) :
    (s.raise k w e).mem = s.mem := rfl
@[simp] theorem State.raise_v (s : State) (k : ErrKind) (w : Option Word) (e : ErrInfo) :
    (s.raise k w e).v = s.v := rfl
@[simp] theorem State.raise_i (s : State) (k : ErrKind) (w : Option Word) (e : ErrInfo) :
    (s.raise k w e).i = s.i := rfl
@[simp] theorem State.raise_pc (s : State) (k : ErrKind) (w : Option Word) (e : ErrInfo) :
    (s.raise k w e).pc = s.pc := rfl
@[simp] theorem State.raise_stack (s : State) (k : ErrKind) (w : Option Word) (e : ErrInfo) :
    (s.raise k w e).stack = s.stack := rfl
@[simp] theorem State.raise_sp (s : State) (k : ErrKind) (w : Option Word) (e : ErrInfo) :
    (s.raise k w e).sp = s.sp := rfl
@[simp] theorem State.raise_fb (s : State) (k : ErrKind) (w : Option Word) (e : ErrInfo) :
    (s.raise k w e).fb = s.fb := rfl
@[simp] theorem State.raise_dt (s : State) (k : ErrKind) (w : Option Word) (e : ErrInfo) :
    (s.raise k w e).dt = s.dt := rfl
@[simp] theorem State.raise_st (s : State) (k : ErrKind) (w : Option Word) (e : ErrInfo) :
    (s.raise k w e).st = s.st := rfl
@[simp] theorem State.raise_key (s : State) (k : ErrKind) (w : Option Word) (e : ErrInfo) :
    (s.raise k w e).key = s.key := rfl
@[simp] theorem State.raise_run (s : State) (k : ErrKind) (w : Option Word) (e : ErrInfo) :
    (s.raise k w e).run = .halted := rfl
@[simp] theorem State.raise_err (s : State) (k : ErrKind) (w : Option Word) (e : ErrInfo) :
    (s.raise k w e).err = some ⟨k, s.pc, w, e⟩ := rfl
@[simp] theorem State.raise_rndIn (s : State) (k : ErrKind) (w : Option Word) (e : ErrInfo) :
    (s.raise k w e).rndIn = s.rndIn := rfl
@[simp] theorem State.raise_rndDraws (s : State) (k : ErrKind) (w : Option Word) (e : ErrInfo) :
    (s.raise k w e).rndDraws = s.rndDraws := rfl
@[simp] theorem State.raise_cfg (s : State) (k : ErrKind) (w : Option Word) (e : ErrInfo) :
    (s.raise k w e).cfg = s.cfg := rfl

/-! ## takeRnd and skipIf, which choose -/

@[simp] theorem State.takeRnd_mem (s : State) : s.takeRnd.mem = s.mem := by
  unfold State.takeRnd; split <;> rfl
@[simp] theorem State.takeRnd_v (s : State) : s.takeRnd.v = s.v := by
  unfold State.takeRnd; split <;> rfl
@[simp] theorem State.takeRnd_i (s : State) : s.takeRnd.i = s.i := by
  unfold State.takeRnd; split <;> rfl
@[simp] theorem State.takeRnd_pc (s : State) : s.takeRnd.pc = s.pc := by
  unfold State.takeRnd; split <;> rfl
@[simp] theorem State.takeRnd_stack (s : State) : s.takeRnd.stack = s.stack := by
  unfold State.takeRnd; split <;> rfl
@[simp] theorem State.takeRnd_sp (s : State) : s.takeRnd.sp = s.sp := by
  unfold State.takeRnd; split <;> rfl
@[simp] theorem State.takeRnd_fb (s : State) : s.takeRnd.fb = s.fb := by
  unfold State.takeRnd; split <;> rfl
@[simp] theorem State.takeRnd_dt (s : State) : s.takeRnd.dt = s.dt := by
  unfold State.takeRnd; split <;> rfl
@[simp] theorem State.takeRnd_st (s : State) : s.takeRnd.st = s.st := by
  unfold State.takeRnd; split <;> rfl
@[simp] theorem State.takeRnd_key (s : State) : s.takeRnd.key = s.key := by
  unfold State.takeRnd; split <;> rfl
@[simp] theorem State.takeRnd_run (s : State) : s.takeRnd.run = s.run := by
  unfold State.takeRnd; split <;> rfl
@[simp] theorem State.takeRnd_err (s : State) : s.takeRnd.err = s.err := by
  unfold State.takeRnd; split <;> rfl
@[simp] theorem State.takeRnd_cfg (s : State) : s.takeRnd.cfg = s.cfg := by
  unfold State.takeRnd; split <;> rfl

@[simp] theorem State.skipIf_mem (s : State) (c : Bool) : (s.skipIf c).mem = s.mem := by cases c <;> rfl
@[simp] theorem State.skipIf_v (s : State) (c : Bool) : (s.skipIf c).v = s.v := by cases c <;> rfl
@[simp] theorem State.skipIf_i (s : State) (c : Bool) : (s.skipIf c).i = s.i := by cases c <;> rfl
@[simp] theorem State.skipIf_pc (s : State) (c : Bool) :
    (s.skipIf c).pc = if c then s.pc + 4 else s.pc + 2 := by cases c <;> rfl
@[simp] theorem State.skipIf_stack (s : State) (c : Bool) : (s.skipIf c).stack = s.stack := by cases c <;> rfl
@[simp] theorem State.skipIf_sp (s : State) (c : Bool) : (s.skipIf c).sp = s.sp := by cases c <;> rfl
@[simp] theorem State.skipIf_fb (s : State) (c : Bool) : (s.skipIf c).fb = s.fb := by cases c <;> rfl
@[simp] theorem State.skipIf_dt (s : State) (c : Bool) : (s.skipIf c).dt = s.dt := by cases c <;> rfl
@[simp] theorem State.skipIf_st (s : State) (c : Bool) : (s.skipIf c).st = s.st := by cases c <;> rfl
@[simp] theorem State.skipIf_key (s : State) (c : Bool) : (s.skipIf c).key = s.key := by cases c <;> rfl
@[simp] theorem State.skipIf_run (s : State) (c : Bool) : (s.skipIf c).run = s.run := by cases c <;> rfl
@[simp] theorem State.skipIf_err (s : State) (c : Bool) : (s.skipIf c).err = s.err := by cases c <;> rfl
@[simp] theorem State.skipIf_rndIn (s : State) (c : Bool) : (s.skipIf c).rndIn = s.rndIn := by cases c <;> rfl
@[simp] theorem State.skipIf_rndDraws (s : State) (c : Bool) : (s.skipIf c).rndDraws = s.rndDraws := by cases c <;> rfl
@[simp] theorem State.skipIf_cfg (s : State) (c : Bool) : (s.skipIf c).cfg = s.cfg := by cases c <;> rfl

end Sys2Proof.Machine
end

