-- ==== Sys2Proof/Laws/Ops.lean ====
section
/-! SUPPORT. For each shared operation, what it does, said once: memory, registers, the call stack, keys, timers. -/

namespace Sys2Proof.Machine

/-! ## Memory -/

/-- A memory read after a memory write. -/
theorem State.memRead_memWrite (s : State) (a b : Nat) (v : Byte) :
    (s.memWrite a v).memRead b = if b % 4096 = a % 4096 then v else s.memRead b :=
  Cells.read_write ..

/-- A memory write keeps the canonical form. -/
theorem State.memWrite_wf {s : State} (h : Memory.wf s.cfg.font s.mem) (a : Nat) (v : Byte) :
    Memory.wf s.cfg.font (s.memWrite a v).mem :=
  Cells.write_wf h (Nat.mod_lt _ (by decide))

/-- Two states with the same memory and parameters read the same. -/
theorem State.memRead_congr {s t : State} (hm : t.mem = s.mem) (hc : t.cfg = s.cfg) (a : Nat) :
    t.memRead a = s.memRead a := by
  simp [State.memRead, hm, hc]

/-- `storeBytes` changes memory alone. -/
theorem State.storeBytes_eq (s : State) (a : Nat) (bs : List Byte) :
    s.storeBytes a bs = { s with mem := (s.storeBytes a bs).mem } := by
  induction bs generalizing s a with
  | nil => rfl
  | cons b bs ih => exact ih (s.memWrite a b) (a + 1)

/-- `storeBytes` reads back each byte at its address. The addresses do not meet modulo 4096. -/
theorem State.memRead_storeBytes_inside (s : State) (a : Nat) (bs : List Byte) (hl : bs.length ≤ 4096) (j : Nat)
    (hj : j < bs.length) {b : Nat} (hb : b % 4096 = (a + j) % 4096) :
    (s.storeBytes a bs).memRead b = bs[j] := by
  induction bs generalizing s a j with
  | nil => simp at hj
  | cons c bs ih =>
    simp only [List.length_cons] at hl hj
    cases j with
    | zero =>
      have key : ∀ (bs : List Byte) (s : State) (a' : Nat), (∀ k < bs.length, b % 4096 ≠ (a' + k) % 4096) →
          (s.storeBytes a' bs).memRead b = s.memRead b := by
        intro bs
        induction bs with
        | nil => intro s a' _; rfl
        | cons d bs ih =>
          intro s a' h
          rw [State.storeBytes, ih _ _ fun k hk => ?_, State.memRead_memWrite, if_neg]
          · simpa using h 0 (by simp)
          · have := h (k + 1) (by simpa using hk)
            rwa [show a' + (k + 1) = a' + 1 + k by omega] at this
      rw [State.storeBytes, key _ _ _ fun k hk => ?_, State.memRead_memWrite, if_pos (by simpa using hb)]
      · rfl
      · omega
    | succ j =>
      exact ih (s.memWrite a c) (a + 1) (by omega) j (by omega) (by rw [hb]; congr 1; omega)

/-- `storeBytes` leaves every other address as before. -/
theorem State.memRead_storeBytes_outside (s : State) (a : Nat) (bs : List Byte) {b : Nat}
    (h : ∀ j < bs.length, b % 4096 ≠ (a + j) % 4096) : (s.storeBytes a bs).memRead b = s.memRead b := by
  induction bs generalizing s a with
  | nil => rfl
  | cons c bs ih =>
    rw [State.storeBytes, ih _ _ fun k hk => ?_, State.memRead_memWrite, if_neg]
    · simpa using h 0 (by simp)
    · have := h (k + 1) (by simpa using hk)
      rwa [show a + (k + 1) = a + 1 + k by omega] at this

/-- `storeBytes` keeps the canonical form. -/
theorem State.storeBytes_wf {s : State} (h : Memory.wf s.cfg.font s.mem) (a : Nat) (bs : List Byte) :
    Memory.wf s.cfg.font (s.storeBytes a bs).mem := by
  induction bs generalizing s a with
  | nil => exact h
  | cons b bs ih => exact ih (s := s.memWrite a b) (State.memWrite_wf h a b) (a + 1)

@[simp] theorem State.storeBytes_v (s : State) (a : Nat) (bs : List Byte) : (s.storeBytes a bs).v = s.v := by
  rw [State.storeBytes_eq]

@[simp] theorem State.storeBytes_i (s : State) (a : Nat) (bs : List Byte) : (s.storeBytes a bs).i = s.i := by
  rw [State.storeBytes_eq]

@[simp] theorem State.storeBytes_pc (s : State) (a : Nat) (bs : List Byte) : (s.storeBytes a bs).pc = s.pc := by
  rw [State.storeBytes_eq]

@[simp] theorem State.storeBytes_stack (s : State) (a : Nat) (bs : List Byte) :
    (s.storeBytes a bs).stack = s.stack := by
  rw [State.storeBytes_eq]

@[simp] theorem State.storeBytes_sp (s : State) (a : Nat) (bs : List Byte) : (s.storeBytes a bs).sp = s.sp := by
  rw [State.storeBytes_eq]

@[simp] theorem State.storeBytes_fb (s : State) (a : Nat) (bs : List Byte) : (s.storeBytes a bs).fb = s.fb := by
  rw [State.storeBytes_eq]

@[simp] theorem State.storeBytes_dt (s : State) (a : Nat) (bs : List Byte) : (s.storeBytes a bs).dt = s.dt := by
  rw [State.storeBytes_eq]

@[simp] theorem State.storeBytes_st (s : State) (a : Nat) (bs : List Byte) : (s.storeBytes a bs).st = s.st := by
  rw [State.storeBytes_eq]

@[simp] theorem State.storeBytes_key (s : State) (a : Nat) (bs : List Byte) : (s.storeBytes a bs).key = s.key := by
  rw [State.storeBytes_eq]

@[simp] theorem State.storeBytes_run (s : State) (a : Nat) (bs : List Byte) : (s.storeBytes a bs).run = s.run := by
  rw [State.storeBytes_eq]

@[simp] theorem State.storeBytes_err (s : State) (a : Nat) (bs : List Byte) : (s.storeBytes a bs).err = s.err := by
  rw [State.storeBytes_eq]

@[simp] theorem State.storeBytes_rndIn (s : State) (a : Nat) (bs : List Byte) :
    (s.storeBytes a bs).rndIn = s.rndIn := by
  rw [State.storeBytes_eq]

@[simp] theorem State.storeBytes_rndDraws (s : State) (a : Nat) (bs : List Byte) :
    (s.storeBytes a bs).rndDraws = s.rndDraws := by
  rw [State.storeBytes_eq]

@[simp] theorem State.storeBytes_cfg (s : State) (a : Nat) (bs : List Byte) : (s.storeBytes a bs).cfg = s.cfg := by
  rw [State.storeBytes_eq]

/-- Under fault, an address below 4096 is in bounds; under wrap every address is (R53). -/
theorem State.outOfBounds_eq_false {s : State} {a : Nat} :
    s.outOfBounds a = false ↔ (s.cfg.memOob = .fault → a < 4096) := by
  unfold State.outOfBounds
  cases s.cfg.memOob <;> simp

theorem State.outOfBounds_eq_true {s : State} {a : Nat} :
    s.outOfBounds a = true ↔ s.cfg.memOob = .fault ∧ 4096 ≤ a := by
  unfold State.outOfBounds
  cases s.cfg.memOob <;> simp

/-- No data address of the n at I is out of bounds when the last is not. -/
theorem State.firstOutOfBounds_none {s : State} {n : Nat} (h : s.cfg.memOob = .fault → s.i.toNat + n ≤ 4096) :
    s.firstOutOfBounds (s.addresses n) = none := by
  simp only [State.firstOutOfBounds, State.addresses, List.find?_eq_none, List.mem_map, List.mem_range,
    forall_exists_index, and_imp]
  rintro _ k hk rfl
  rw [Bool.not_eq_true, State.outOfBounds_eq_false]
  intro hf
  have := h hf
  simp only [State.address]
  omega

theorem find_first_range (p : Nat → Bool) (n j : Nat) (hj : j < n) (hp : p j = true)
    (hb : ∀ k < j, p k = false) : (List.range n).find? p = some j := by
  rw [List.find?_range_eq_some]
  exact ⟨hp, by simpa using hj, fun k hk => by simp [hb k hk]⟩

/-- The first data address out of bounds, when there is one (R150). -/
theorem State.firstOutOfBounds_some {s : State} {n : Nat} (hf : s.cfg.memOob = .fault)
    (h : 4096 < s.i.toNat + n) (hn : 0 < n) :
    s.firstOutOfBounds (s.addresses n) = some (if 4096 ≤ s.i.toNat then s.i.toNat else 4096) := by
  have hoob : ∀ k, s.outOfBounds (s.address k) = decide (4096 ≤ s.i.toNat + k) := fun k => by
    unfold State.outOfBounds; rw [hf]; rfl
  rw [State.firstOutOfBounds, State.addresses, List.find?_map,
    find_first_range _ n (if 4096 ≤ s.i.toNat then 0 else 4096 - s.i.toNat)]
  · split
    · simp [State.address]
    · simp only [Option.map_some, State.address]; congr 1; omega
  · split <;> omega
  · simp only [Function.comp, hoob]; split <;> simp <;> omega
  · intro k hk
    simp only [Function.comp, hoob]
    split at hk
    · omega
    · simp only [decide_eq_false_iff_not]; omega

/-! ## Registers -/

@[simp] theorem State.reg_setReg_same (s : State) (x : Nibble) (b : Byte) : (s.setReg x b).reg x = b := by
  simp [State.reg, State.setReg]

theorem State.reg_setReg_other (s : State) {x y : Nibble} (b : Byte) (h : y ≠ x) :
    (s.setReg x b).reg y = s.reg y := by
  have : x.val ≠ y.val := fun e => h (Fin.ext e.symm)
  simp [State.reg, State.setReg, this]

theorem State.reg_setReg (s : State) (x y : Nibble) (b : Byte) :
    (s.setReg x b).reg y = if y = x then b else s.reg y := by
  split
  · subst y; simp
  · exact State.reg_setReg_other s b ‹_›

/-- Two states with the same register file read the same registers. -/
theorem State.reg_congr {s t : State} (h : t.v = s.v) (x : Nibble) : t.reg x = s.reg x := by
  simp [State.reg, h]

/-- `loadRegs` changes the registers alone. -/
theorem State.loadRegs_eq (s : State) (n : Nat) : s.loadRegs n = { s with v := (s.loadRegs n).v } := by
  induction n with
  | zero => rfl
  | succ n ih => rw [State.loadRegs, ih]; rfl

/-- `loadRegs n` loads the registers below n and leaves the others. -/
theorem State.reg_loadRegs (s : State) {n : Nat} (hn : n ≤ 16) (r : Nibble) :
    (s.loadRegs n).reg r = if r.val < n then s.memRead (s.address r.val) else s.reg r := by
  induction n with
  | zero => rfl
  | succ n ih =>
    have hfin : (Fin.ofNat 16 n).val = n := Nat.mod_eq_of_lt (by omega)
    rw [State.loadRegs, State.reg_setReg, ih (by omega)]
    by_cases h : r = Fin.ofNat 16 n
    · have hr : r.val = n := by rw [h, hfin]
      rw [if_pos h, if_pos (by omega), hr]
    · have hr : r.val ≠ n := fun e => h (Fin.ext (by rw [hfin, e]))
      have : r.val < n + 1 ↔ r.val < n := by omega
      rw [if_neg h]
      simp only [this]

theorem State.regsUpTo_length (s : State) (x : Nibble) : (s.regsUpTo x).length = x.val + 1 := by
  simp [State.regsUpTo]

theorem State.regsUpTo_getElem (s : State) (x : Nibble) {j : Nat} (h : j < (s.regsUpTo x).length) :
    (s.regsUpTo x)[j] = s.reg (Fin.ofNat 16 j) := by
  rw [State.regsUpTo_length] at h
  have hj : j % 16 = j := Nat.mod_eq_of_lt (by omega)
  simp [State.regsUpTo, State.reg, hj]

/-! ## Call stack -/

/-- A push succeeds exactly below SP = 16; it writes the entry at SP and raises SP. -/
theorem State.push_cases {s t : State} {w : Word} (h : s.push w = some t) :
    ∃ hs : s.sp.val < 16, t = { s with stack := s.stack.set s.sp.val w, sp := ⟨s.sp.val + 1, by omega⟩ } := by
  unfold State.push at h
  split at h
  · exact ⟨‹_›, (Option.some.inj h).symm⟩
  · exact absurd h (by simp)

theorem State.push_none {s : State} {w : Word} : s.push w = none ↔ s.sp.val = 16 := by
  unfold State.push
  split
  · simp; omega
  · simp; omega

/-- A pop succeeds exactly above SP = 0; it lowers SP and gives the entry there. -/
theorem State.pop_cases {s t : State} {w : Word} (h : s.pop = some (w, t)) :
    ∃ hs : 0 < s.sp.val, w = s.stack[s.sp.val - 1] ∧ t = { s with sp := ⟨s.sp.val - 1, by omega⟩ } := by
  unfold State.pop at h
  split at h
  · simp only [Option.some.injEq, Prod.mk.injEq] at h
    exact ⟨‹_›, h.1.symm, h.2.symm⟩
  · exact absurd h (by simp)

theorem State.pop_none {s : State} : s.pop = none ↔ s.sp.val = 0 := by
  unfold State.pop
  split
  · simp; omega
  · simp; omega

/-! ## Keys -/

theorem State.keyPressed_fin (s : State) (k : Fin 16) : s.keyPressed k.val = s.key[k] := by
  simp [State.keyPressed]

/-- The least pressed key. -/
theorem State.firstKey_some {s : State} {k : Fin 16} (hk : s.key[k] = true)
    (h : ∀ j : Fin 16, j < k → s.key[j] = false) : s.firstKey = some k.val :=
  find_first_range _ _ _ k.isLt (by rw [State.keyPressed_fin, hk]) fun j hj => by
    rw [State.keyPressed_fin s ⟨j, by omega⟩]
    exact h ⟨j, by omega⟩ hj

theorem State.firstKey_none {s : State} (h : ∀ j : Fin 16, s.key[j] = false) : s.firstKey = none := by
  simp only [State.firstKey, List.find?_eq_none, List.mem_range]
  intro j hj
  rw [State.keyPressed_fin s ⟨j, hj⟩, h]
  simp

/-! ## Timers -/

theorem countDown_toNat (b : Byte) : (countDown b).toNat = b.toNat - 1 := by
  unfold countDown
  split
  · subst b; rfl
  · have : b.toNat ≠ 0 := fun e => by simp_all [BitVec.toNat_eq]
    bv_omega

end Sys2Proof.Machine
end

