-- ==== Sys2Proof/Laws/Draw.lean ====
section
/-! SUPPORT. What drawing does: a draw is the plotting of a list of pixels, and the laws of plotting. -/

namespace Sys2Proof.Machine

/-! ## Cells of the framebuffer -/

theorem Framebuffer.cell_flip (f : Framebuffer) (a k : Nat) :
    (f.flip a).cell k = if k = a then f.cell k ^^^ 1 else f.cell k := by
  unfold Framebuffer.flip Framebuffer.cell
  rw [Cells.read_write]
  split
  · subst k; rfl
  · rfl

/-- Every cell of a canonical framebuffer is 0 or 1. -/
theorem Framebuffer.cell_zero_or_one {f : Framebuffer} (h : Framebuffer.wf f) (k : Nat) :
    f.cell k = 0 ∨ f.cell k = 1 := by
  obtain h0 | ⟨c, hc, -, h1⟩ := Cells.read_cases (fun _ => 0) f k
  · exact .inl h0
  · exact .inr (h1.trans (h.2 c hc))

/-- Flipping a cell keeps the framebuffer canonical. -/
theorem Framebuffer.flip_wf {f : Framebuffer} (h : Framebuffer.wf f) {k : Nat} (hk : k < 2048) :
    Framebuffer.wf (f.flip k) := by
  refine ⟨Cells.write_wf h.1 hk, fun c hc => ?_⟩
  obtain ⟨rfl, hne⟩ | ⟨hc, -⟩ := Cells.mem_write.1 hc
  · obtain h0 | h1 := Framebuffer.cell_zero_or_one h k
    · simp [h0]
    · simp [h1] at hne
  · exact h.2 c hc

/-! ## Placement -/

/-- The index of a placed pixel, whatever the policy. -/
theorem placePixel_cell {edge : FbEdgePolicy} {px py k : Nat} (h : placePixel edge px py = .cell k) :
    k = px % 64 + py % 32 * 64 := by
  unfold placePixel at h
  split at h
  · obtain ⟨h1, h2⟩ := ‹px < 64 ∧ py < 32›
    simp only [Placement.cell.injEq] at h
    rw [Nat.mod_eq_of_lt h1, Nat.mod_eq_of_lt h2, h]
  · cases edge <;> simp_all

theorem placePixel_cell_lt {edge : FbEdgePolicy} {px py k : Nat} (h : placePixel edge px py = .cell k) :
    k < 2048 := by
  rw [placePixel_cell h]; omega

/-- Two pixels on one cell have the same column modulo 64 and row modulo 32. -/
theorem placePixel_cell_inj {edge : FbEdgePolicy} {px py qx qy k : Nat} (hp : placePixel edge px py = .cell k)
    (hq : placePixel edge qx qy = .cell k) : px % 64 = qx % 64 ∧ py % 32 = qy % 32 := by
  have h1 := placePixel_cell hp
  have h2 := placePixel_cell hq
  omega

/-- Only FB_EDGE_POLICY = fault has pixels outside: at a column ≥ 64 or a row ≥ 32. -/
theorem placePixel_outside {edge : FbEdgePolicy} {px py : Nat} :
    placePixel edge px py = .outside ↔ edge = .fault ∧ (64 ≤ px ∨ 32 ≤ py) := by
  unfold placePixel
  split
  · simp; omega
  · cases edge <;> simp; omega

/-! ## Plotting a list of pixels -/

/-- XORs the pixels of a list in order. -/
def plotAll (edge : FbEdgePolicy) :
    List (Nat × Nat) → Framebuffer × Bool → Except ErrInfo (Framebuffer × Bool)
  | [], acc => .ok acc
  | p :: ps, acc =>
    match drawPixel edge p.1 p.2 acc with
    | .ok acc' => plotAll edge ps acc'
    | .error e => .error e

theorem plotAll_append (edge : FbEdgePolicy) (ps qs : List (Nat × Nat)) (acc : Framebuffer × Bool) :
    plotAll edge (ps ++ qs) acc =
      match plotAll edge ps acc with
      | .ok acc' => plotAll edge qs acc'
      | .error e => .error e := by
  induction ps generalizing acc with
  | nil => rfl
  | cons p ps ih =>
    simp only [List.cons_append, plotAll]
    cases drawPixel edge p.1 p.2 acc with
    | error e => rfl
    | ok acc' => exact ih acc'

/-- One pixel: an error exactly when it is outside, else its cell flipped and the collision noted. -/
theorem drawPixel_spec (edge : FbEdgePolicy) (px py : Nat) (acc : Framebuffer × Bool) :
    (placePixel edge px py = .outside → drawPixel edge px py acc = .error (.framebufferAt px py)) ∧
    (placePixel edge px py ≠ .outside → ∃ acc', drawPixel edge px py acc = .ok acc' ∧
      (∀ k, acc'.1.cell k = if placePixel edge px py = .cell k then acc.1.cell k ^^^ 1 else acc.1.cell k) ∧
      (acc'.2 = true ↔ acc.2 = true ∨ ∃ k, placePixel edge px py = .cell k ∧ acc.1.cell k = 1)) := by
  unfold drawPixel
  cases placePixel edge px py with
  | outside => simp
  | clipped => simp
  | cell j =>
    simp only [reduceCtorEq, false_imp_iff, ne_eq, not_false_eq_true, forall_const, Except.ok.injEq, true_and,
      exists_eq_left', Placement.cell.injEq, Framebuffer.cell_flip, Bool.or_eq_true, beq_iff_eq, and_true]
    intro k
    simp [eq_comm]

/-- Plotting pixels none of which is outside and no two of which share a cell: every covered cell is flipped, the others
stay, and there is a collision iff a covered cell was set. -/
theorem plotAll_ok {edge : FbEdgePolicy} {ps : List (Nat × Nat)} (acc : Framebuffer × Bool)
    (hin : ∀ p ∈ ps, placePixel edge p.1 p.2 ≠ .outside)
    (hdis : ps.Pairwise fun p q => ∀ k, placePixel edge p.1 p.2 = .cell k → placePixel edge q.1 q.2 ≠ .cell k) :
    ∃ acc', plotAll edge ps acc = .ok acc' ∧
      (∀ k, (∃ p ∈ ps, placePixel edge p.1 p.2 = .cell k) → acc'.1.cell k = acc.1.cell k ^^^ 1) ∧
      (∀ k, (¬ ∃ p ∈ ps, placePixel edge p.1 p.2 = .cell k) → acc'.1.cell k = acc.1.cell k) ∧
      (acc'.2 = true ↔ acc.2 = true ∨ ∃ k, (∃ p ∈ ps, placePixel edge p.1 p.2 = .cell k) ∧ acc.1.cell k = 1) := by
  induction ps generalizing acc with
  | nil => exact ⟨acc, rfl, by simp⟩
  | cons p ps ih =>
    obtain ⟨hp, hps⟩ := List.pairwise_cons.1 hdis
    obtain ⟨b, hb, hcell, hcol⟩ := (drawPixel_spec edge p.1 p.2 acc).2 (hin p (by simp))
    obtain ⟨c, hc, h1, h2, h3⟩ := ih b (fun q hq => hin q (by simp [hq])) hps
    refine ⟨c, by simp only [plotAll, hb, hc], fun k hk => ?_, fun k hk => ?_, ?_⟩
    · by_cases hpk : placePixel edge p.1 p.2 = .cell k
      · have : ¬ ∃ q ∈ ps, placePixel edge q.1 q.2 = .cell k := fun ⟨q, hq, hqk⟩ => hp q hq k hpk hqk
        rw [h2 k this, hcell, if_pos hpk]
      · have : ∃ q ∈ ps, placePixel edge q.1 q.2 = .cell k := by
          obtain ⟨q, hq, hqk⟩ := hk
          obtain rfl | hq := List.mem_cons.1 hq
          · exact absurd hqk hpk
          · exact ⟨q, hq, hqk⟩
        rw [h1 k this, hcell, if_neg hpk]
    · have hpk : placePixel edge p.1 p.2 ≠ .cell k := fun e => hk ⟨p, by simp, e⟩
      rw [h2 k fun ⟨q, hq, hqk⟩ => hk ⟨q, by simp [hq], hqk⟩, hcell, if_neg hpk]
    · rw [h3, hcol]
      constructor
      · rintro ((h | ⟨k, hk, h⟩) | ⟨k, ⟨q, hq, hqk⟩, h⟩)
        · exact .inl h
        · exact .inr ⟨k, ⟨p, by simp, hk⟩, h⟩
        · refine .inr ⟨k, ⟨q, by simp [hq], hqk⟩, ?_⟩
          rwa [hcell, if_neg fun e => hp q hq k e hqk] at h
      · rintro (h | ⟨k, ⟨q, hq, hqk⟩, h⟩)
        · exact .inl (.inl h)
        · obtain rfl | hq := List.mem_cons.1 hq
          · exact .inl (.inr ⟨k, hqk, h⟩)
          · refine .inr ⟨k, ⟨q, hq, hqk⟩, ?_⟩
            rwa [hcell, if_neg fun e => hp q hq k e hqk]

/-! ## Rows as pixels -/

/-- The pixels of the set bits of one sprite row, left to right. -/
def State.rowPixels (s : State) (cx cy r : Nat) : List (Nat × Nat) :=
  ((List.range 8).filter (s.spriteBit r)).map fun c => (cx + c, cy + r)

theorem drawBits_eq_plotAll (edge : FbEdgePolicy) (row : Byte) (cx py : Nat) (cs : List Nat)
    (acc : Framebuffer × Bool) :
    drawBits edge row cx py cs acc =
      plotAll edge ((cs.filter fun c => row.getLsbD (7 - c)).map fun c => (cx + c, py)) acc := by
  induction cs generalizing acc with
  | nil => rfl
  | cons c cs ih =>
    unfold drawBits
    by_cases h : row.getLsbD (7 - c) = true
    · simp only [h, if_true, List.filter_cons, List.map_cons, plotAll]
      cases drawPixel edge (cx + c) py acc with
      | error e => rfl
      | ok acc' => exact ih acc'
    · simp [h, ih]

/-- Rows all of which are in memory are the plotting of their pixels. -/
theorem State.drawRows_eq_plotAll (s : State) (cx cy : Nat) (rs : List Nat) (acc : Framebuffer × Bool)
    (h : ∀ r ∈ rs, s.outOfBounds (s.i.toNat + r) = false) :
    s.drawRows cx cy rs acc = plotAll s.cfg.fbEdge (rs.flatMap (s.rowPixels cx cy)) acc := by
  induction rs generalizing acc with
  | nil => rfl
  | cons r rs ih =>
    have ih := fun acc => ih acc fun q hq => h q (by simp [hq])
    simp only [State.drawRows, h r (by simp), Bool.false_eq_true, if_false, drawBits_eq_plotAll, List.flatMap_cons,
      plotAll_append]
    have : ((List.range 8).filter fun c => (s.memRead (s.i.toNat + r)).getLsbD (7 - c)).map
        (fun c => (cx + c, cy + r)) = s.rowPixels cx cy r := rfl
    rw [this]
    cases plotAll s.cfg.fbEdge (s.rowPixels cx cy r) acc with
    | error e => rfl
    | ok acc' => exact ih acc'

theorem State.mem_rowPixels {s : State} {cx cy r : Nat} {p : Nat × Nat} :
    p ∈ s.rowPixels cx cy r ↔ ∃ c < 8, s.spriteBit r c = true ∧ p = (cx + c, cy + r) := by
  simp only [State.rowPixels, List.mem_map, List.mem_filter, List.mem_range, and_assoc, @eq_comm _ p]

/-- No two pixels of one sprite fall on one cell: a row has 8 < 64 columns, a sprite at most 15 < 32 rows (R172). -/
theorem State.rowPixels_disjoint (s : State) (cx cy n : Nat) (hn : n ≤ 32) :
    ((List.range n).flatMap (s.rowPixels cx cy)).Pairwise fun p q =>
      ∀ k, placePixel s.cfg.fbEdge p.1 p.2 = .cell k → placePixel s.cfg.fbEdge q.1 q.2 ≠ .cell k := by
  rw [List.pairwise_flatMap]
  constructor
  · intro r _
    rw [State.rowPixels, List.pairwise_map]
    refine List.Pairwise.filter _ ?_
    refine (List.pairwise_lt_range (n := 8)).imp_of_mem ?_
    intro c d hc hd hcd k hk hk'
    have := (placePixel_cell_inj hk hk').1
    simp only [List.mem_range] at hc hd
    omega
  · refine (List.pairwise_lt_range (n := n)).imp_of_mem ?_
    intro r q hr hq hrq p hp p' hp' k hk hk'
    obtain ⟨c, -, -, rfl⟩ := State.mem_rowPixels.1 hp
    obtain ⟨d, -, -, rfl⟩ := State.mem_rowPixels.1 hp'
    have := (placePixel_cell_inj hk hk').2
    simp only [List.mem_range] at hr hq
    dsimp only at this
    omega

/-! ## The framebuffer stays canonical -/

theorem drawPixel_wf {edge : FbEdgePolicy} {px py : Nat} {acc acc' : Framebuffer × Bool}
    (h : drawPixel edge px py acc = .ok acc') (hw : Framebuffer.wf acc.1) : Framebuffer.wf acc'.1 := by
  unfold drawPixel at h
  split at h
  · obtain rfl := Except.ok.inj h
    exact Framebuffer.flip_wf hw (placePixel_cell_lt ‹_›)
  · obtain rfl := Except.ok.inj h
    exact hw
  · exact absurd h (by simp)

theorem plotAll_wf {edge : FbEdgePolicy} {ps : List (Nat × Nat)} {acc acc' : Framebuffer × Bool}
    (h : plotAll edge ps acc = .ok acc') (hw : Framebuffer.wf acc.1) : Framebuffer.wf acc'.1 := by
  induction ps generalizing acc with
  | nil => obtain rfl := Except.ok.inj h; exact hw
  | cons p ps ih =>
    simp only [plotAll] at h
    split at h
    · exact ih h (drawPixel_wf ‹_› hw)
    · exact absurd h (by simp)

/-- A draw that answers has every row in memory. -/
theorem State.drawRows_inBounds {s : State} {cx cy : Nat} {rs : List Nat} {acc acc' : Framebuffer × Bool}
    (h : s.drawRows cx cy rs acc = .ok acc') : ∀ r ∈ rs, s.outOfBounds (s.i.toNat + r) = false := by
  induction rs generalizing acc with
  | nil => simp
  | cons r rs ih =>
    simp only [State.drawRows] at h
    split at h
    · exact absurd h (by simp)
    · split at h
      · intro q hq
        obtain rfl | hq := List.mem_cons.1 hq
        · exact Bool.not_eq_true _ ▸ ‹¬ s.outOfBounds _ = true›
        · exact ih h q hq
      · exact absurd h (by simp)

/-- A draw that answers keeps the framebuffer canonical. -/
theorem State.drawRows_wf {s : State} {cx cy : Nat} {rs : List Nat} {acc acc' : Framebuffer × Bool}
    (h : s.drawRows cx cy rs acc = .ok acc') (hw : Framebuffer.wf acc.1) : Framebuffer.wf acc'.1 := by
  rw [State.drawRows_eq_plotAll _ _ _ _ _ (State.drawRows_inBounds h)] at h
  exact plotAll_wf h hw

/-- Splitting `0, …, n - 1` at an element: the part before it is exactly the smaller numbers. -/
theorem range_eq_append {n c : Nat} {pre post : List Nat} (h : List.range n = pre ++ c :: post) :
    c < n ∧ ∀ c' < c, c' ∈ pre := by
  have hn : n = pre.length + (post.length + 1) := by simpa using congrArg List.length h
  have hc : (List.range n)[pre.length]'(by simp; omega) = pre.length := List.getElem_range _
  simp only [h] at hc
  simp at hc
  refine ⟨by omega, fun c' hc' => ?_⟩
  have hm : (List.range n)[c']'(by simp; omega) = c' := List.getElem_range _
  simp only [h] at hm
  rw [List.getElem_append_left (by omega)] at hm
  exact hm ▸ List.getElem_mem _

/-- A row's bits drawn without an error have none outside; an error is the first of them in column order that is. -/
theorem drawBits_cases (edge : FbEdgePolicy) (row : Byte) (cx py : Nat) (cs : List Nat) (acc : Framebuffer × Bool) :
    ((∃ acc', drawBits edge row cx py cs acc = .ok acc') ∧
      ∀ c ∈ cs, row.getLsbD (7 - c) = true → placePixel edge (cx + c) py ≠ .outside) ∨
    ∃ pre c post, cs = pre ++ c :: post ∧ drawBits edge row cx py cs acc = .error (.framebufferAt (cx + c) py) ∧
      row.getLsbD (7 - c) = true ∧ placePixel edge (cx + c) py = .outside ∧
      ∀ c' ∈ pre, row.getLsbD (7 - c') = true → placePixel edge (cx + c') py ≠ .outside := by
  induction cs generalizing acc with
  | nil => exact .inl ⟨⟨acc, rfl⟩, by simp⟩
  | cons c cs ih =>
    by_cases hb : row.getLsbD (7 - c) = true
    · by_cases ho : placePixel edge (cx + c) py = .outside
      · exact .inr ⟨[], c, cs, rfl, by simp [drawBits, hb, drawPixel, ho], hb, ho, by simp⟩
      · obtain ⟨acc₁, h₁, -⟩ := (drawPixel_spec edge (cx + c) py acc).2 ho
        obtain ⟨⟨acc', h⟩, hall⟩ | ⟨pre, c', post, rfl, h, h'⟩ := ih acc₁
        · exact .inl ⟨⟨acc', by simp [drawBits, hb, h₁, h]⟩, by simpa [ho] using hall⟩
        · exact .inr ⟨c :: pre, c', post, rfl, by simp [drawBits, hb, h₁, h], h'.1, h'.2.1, by simpa [ho] using h'.2.2⟩
    · obtain ⟨⟨acc', h⟩, hall⟩ | ⟨pre, c', post, rfl, h, h'⟩ := ih acc
      · exact .inl ⟨⟨acc', by simp [drawBits, hb, h]⟩, by simpa [hb] using hall⟩
      · exact .inr ⟨c :: pre, c', post, rfl, by simp [drawBits, hb, h], h'.1, h'.2.1, by simpa [hb] using h'.2.2⟩

/-- Rows drawn without an error pass every check; an error is the first check that fails in loop order (R203). -/
theorem State.drawRows_cases (s : State) (cx cy : Nat) (rs : List Nat) (acc : Framebuffer × Bool) :
    ((∃ acc', s.drawRows cx cy rs acc = .ok acc') ∧ ∀ r ∈ rs, s.outOfBounds (s.i.toNat + r) = false ∧
      ∀ c < 8, s.spriteBit r c = true → placePixel s.cfg.fbEdge (cx + c) (cy + r) ≠ .outside) ∨
    ∃ pre r post info, rs = pre ++ r :: post ∧ s.drawRows cx cy rs acc = .error info ∧
      (∀ r' ∈ pre, s.outOfBounds (s.i.toNat + r') = false ∧
        ∀ c < 8, s.spriteBit r' c = true → placePixel s.cfg.fbEdge (cx + c) (cy + r') ≠ .outside) ∧
      ((s.outOfBounds (s.i.toNat + r) = true ∧ info = .memoryAt (s.i.toNat + r)) ∨
       (s.outOfBounds (s.i.toNat + r) = false ∧ ∃ c < 8, s.spriteBit r c = true ∧
         placePixel s.cfg.fbEdge (cx + c) (cy + r) = .outside ∧ info = .framebufferAt (cx + c) (cy + r) ∧
         ∀ c' < c, s.spriteBit r c' = true → placePixel s.cfg.fbEdge (cx + c') (cy + r) ≠ .outside)) := by
  induction rs generalizing acc with
  | nil => exact .inl ⟨⟨acc, rfl⟩, by simp⟩
  | cons r rs ih =>
    cases ho : s.outOfBounds (s.i.toNat + r) with
    | true => exact .inr ⟨[], r, rs, .memoryAt (s.i.toNat + r), rfl, by simp [State.drawRows, ho], by simp, .inl ⟨ho, rfl⟩⟩
    | false =>
      obtain ⟨⟨acc₁, h₁⟩, hall⟩ | ⟨pre, c, post, hcs, h, hb, hp, hpre⟩ :=
        drawBits_cases s.cfg.fbEdge (s.memRead (s.i.toNat + r)) cx (cy + r) (List.range 8) acc
      · have hrow : ∀ c < 8, s.spriteBit r c = true → placePixel s.cfg.fbEdge (cx + c) (cy + r) ≠ .outside :=
          fun c hc => hall c (List.mem_range.2 hc)
        obtain ⟨⟨acc', h⟩, hrest⟩ | ⟨pre, r', post, info, rfl, h, hpre, h'⟩ := ih acc₁
        · exact .inl ⟨⟨acc', by simp [State.drawRows, ho, h₁, h]⟩, List.forall_mem_cons.2 ⟨⟨ho, hrow⟩, hrest⟩⟩
        · exact .inr ⟨r :: pre, r', post, info, rfl, by simp [State.drawRows, ho, h₁, h],
            List.forall_mem_cons.2 ⟨⟨ho, hrow⟩, hpre⟩, h'⟩
      · obtain ⟨hc, hlt⟩ := range_eq_append hcs
        exact .inr ⟨[], r, rs, .framebufferAt (cx + c) (cy + r), rfl, by simp [State.drawRows, ho, h], by simp,
          .inr ⟨ho, c, hc, hb, hp, rfl, fun c' hc' => hpre c' (hlt c' hc')⟩⟩

end Sys2Proof.Machine
end

