-- ==== Sys2Proof/Laws/Encoding.lean ====
section
/-! SUPPORT. The fields of a packed word, and a word packed from its fields (R71, R72). -/

namespace Sys2Proof

@[simp] theorem fieldOp_packNibbles (op x y n : Nibble) : fieldOp (packNibbles op x y n) = op := by
  apply Fin.ext; simp [fieldOp, packNibbles]; omega

@[simp] theorem fieldX_packNibbles (op x y n : Nibble) : fieldX (packNibbles op x y n) = x := by
  apply Fin.ext; simp [fieldX, packNibbles]; omega

@[simp] theorem fieldY_packNibbles (op x y n : Nibble) : fieldY (packNibbles op x y n) = y := by
  apply Fin.ext; simp [fieldY, packNibbles]; omega

@[simp] theorem fieldN_packNibbles (op x y n : Nibble) : fieldN (packNibbles op x y n) = n := by
  apply Fin.ext; simp [fieldN, packNibbles]; omega

@[simp] theorem fieldOp_packXNN (op x : Nibble) (nn : Byte) : fieldOp (packXNN op x nn) = op := by
  have := nn.isLt
  apply Fin.ext; simp [fieldOp, packXNN]; omega

@[simp] theorem fieldX_packXNN (op x : Nibble) (nn : Byte) : fieldX (packXNN op x nn) = x := by
  have := nn.isLt
  apply Fin.ext; simp [fieldX, packXNN]; omega

@[simp] theorem fieldNN_packXNN (op x : Nibble) (nn : Byte) : fieldNN (packXNN op x nn) = nn := by
  have := nn.isLt
  apply BitVec.eq_of_toNat_eq; simp [fieldNN, packXNN]; omega

@[simp] theorem fieldOp_packNNN (op : Nibble) (nnn : Addr) : fieldOp (packNNN op nnn) = op := by
  have := nnn.isLt
  apply Fin.ext; simp [fieldOp, packNNN]; omega

@[simp] theorem fieldNNN_packNNN (op : Nibble) (nnn : Addr) : fieldNNN (packNNN op nnn) = nnn := by
  have := nnn.isLt
  apply BitVec.eq_of_toNat_eq; simp [fieldNNN, packNNN]; omega

theorem packNibbles_fields (w : Word) : packNibbles (fieldOp w) (fieldX w) (fieldY w) (fieldN w) = w := by
  have := w.isLt
  apply BitVec.eq_of_toNat_eq; simp [fieldOp, fieldX, fieldY, fieldN, packNibbles]; omega

theorem packXNN_fields (w : Word) : packXNN (fieldOp w) (fieldX w) (fieldNN w) = w := by
  have := w.isLt
  apply BitVec.eq_of_toNat_eq; simp [fieldOp, fieldX, fieldNN, packXNN]; omega

theorem packNNN_fields (w : Word) : packNNN (fieldOp w) (fieldNNN w) = w := by
  have := w.isLt
  apply BitVec.eq_of_toNat_eq; simp [fieldOp, fieldNNN, packNNN]; omega

/-- The byte at the lower address is bits 15:8 (R52). -/
theorem wordOfBytes_toNat (hi lo : Byte) : (wordOfBytes hi lo).toNat = hi.toNat * 256 + lo.toNat := by
  have := lo.isLt
  rw [wordOfBytes, BitVec.toNat_append, ← Nat.shiftLeft_add_eq_or_of_lt this, Nat.shiftLeft_eq]

/-- A word is the word of its two bytes, and they are stored high byte first (R52). -/
theorem wordOfBytes_bytesOfWord (w : Word) :
    ∃ hi lo, bytesOfWord w = [hi, lo] ∧ wordOfBytes hi lo = w := by
  have := w.isLt
  refine ⟨_, _, rfl, BitVec.eq_of_toNat_eq ?_⟩
  rw [wordOfBytes_toNat]
  simp [Nat.shiftRight_eq_div_pow]
  omega

/-! ## The masks of R76 -/

theorem toNat_and_F000 (w : Word) : (w &&& 0xF000).toNat = w.toNat / 4096 * 4096 := by
  have h : w &&& (0xF000 : Word) = (w >>> 12) <<< 12 := by
    ext i hi
    interval_cases i <;> simp
  have := w.isLt
  rw [h]
  simp only [BitVec.toNat_shiftLeft, BitVec.toNat_ushiftRight, Nat.shiftLeft_eq, Nat.shiftRight_eq_div_pow]
  omega

/-- A group and low bits: the word's top nibble and its low k bits, as a sum. -/
theorem toNat_or_low (w : Word) (k : Nat) (hk : k ≤ 12) :
    ((w >>> 12) <<< 12 ||| (w <<< (16 - k)) >>> (16 - k)).toNat = w.toNat / 4096 * 4096 + w.toNat % 2 ^ k := by
  have hw := w.isLt
  have h1 : ((w >>> 12) <<< 12).toNat = (w.toNat / 4096) <<< 12 := by
    simp only [BitVec.toNat_shiftLeft, BitVec.toNat_ushiftRight, Nat.shiftLeft_eq, Nat.shiftRight_eq_div_pow]
    omega
  have h2 : ((w <<< (16 - k)) >>> (16 - k)).toNat = w.toNat % 2 ^ k := by
    simp only [BitVec.toNat_shiftLeft, BitVec.toNat_ushiftRight, Nat.shiftLeft_eq, Nat.shiftRight_eq_div_pow]
    interval_cases k <;> omega
  have h3 : w.toNat % 2 ^ k < 2 ^ 12 :=
    Nat.lt_of_lt_of_le (Nat.mod_lt _ (by positivity)) (Nat.pow_le_pow_right (by decide) hk)
  rw [BitVec.toNat_or, h1, h2, ← Nat.shiftLeft_add_eq_or_of_lt h3, Nat.shiftLeft_eq]

theorem toNat_and_F00F (w : Word) : (w &&& 0xF00F).toNat = w.toNat / 4096 * 4096 + w.toNat % 16 := by
  have h : w &&& (0xF00F : Word) = (w >>> 12) <<< 12 ||| (w <<< (16 - 4)) >>> (16 - 4) := by
    ext i hi
    interval_cases i <;> simp
  rw [h, toNat_or_low w 4 (by decide)]; rfl

theorem toNat_and_F0FF (w : Word) : (w &&& 0xF0FF).toNat = w.toNat / 4096 * 4096 + w.toNat % 256 := by
  have h : w &&& (0xF0FF : Word) = (w >>> 12) <<< 12 ||| (w <<< (16 - 8)) >>> (16 - 8) := by
    ext i hi
    interval_cases i <;> simp
  rw [h, toNat_or_low w 8 (by decide)]; rfl

theorem and_FFFF (w : Word) : w &&& 0xFFFF = w := by
  ext i hi
  interval_cases i <;> simp

end Sys2Proof
end

