-- ==== Sys2Proof/Laws/PerInstr.lean ====
section
/-! SUPPORT. Per-instruction laws. RowBits: the word of an instruction is one of the words of its row of R76: its bits
under the row's mask are the row's match. -/

namespace Sys2Proof.Laws

/-- The word's bits under the mask of the instruction's row are the row's match, for STRICT_DECODE = false (R76). -/
def RowBits.Statement (i : Instr) : Prop := encode i &&& i.row.mask = i.row.bits

theorem rowBits_XNN (op x : Nibble) (nn : Byte) : packXNN op x nn &&& 0xF000 = packXNN op 0 0 := by
  have := nn.isLt
  apply BitVec.eq_of_toNat_eq
  rw [toNat_and_F000]
  simp [packXNN]
  omega

theorem rowBits_NNN (op : Nibble) (nnn : Addr) : packNNN op nnn &&& 0xF000 = packNNN op 0 := by
  have := nnn.isLt
  apply BitVec.eq_of_toNat_eq
  rw [toNat_and_F000]
  simp [packNNN]
  omega

theorem rowBits_XYN (op x y n : Nibble) : packNibbles op x y n &&& 0xF000 = packNibbles op 0 0 0 := by
  apply BitVec.eq_of_toNat_eq
  rw [toNat_and_F000]
  simp [packNibbles]
  omega

theorem rowBits_XY (op x y n : Nibble) : packNibbles op x y n &&& 0xF00F = packNibbles op 0 0 n := by
  apply BitVec.eq_of_toNat_eq
  rw [toNat_and_F00F]
  simp [packNibbles]
  omega

theorem rowBits_X (op x : Nibble) (nn : Byte) : packXNN op x nn &&& 0xF0FF = packXNN op 0 nn := by
  have := nn.isLt
  apply BitVec.eq_of_toNat_eq
  rw [toNat_and_F0FF]
  simp [packXNN]
  omega

theorem RowBits.cls (ign : Nibble) : RowBits.Statement (.cls ign) := rowBits_X _ _ _
theorem RowBits.ret (ign : Nibble) : RowBits.Statement (.ret ign) := rowBits_X _ _ _
theorem RowBits.jp (nnn : Addr) : RowBits.Statement (.jp nnn) := rowBits_NNN _ _
theorem RowBits.call (nnn : Addr) : RowBits.Statement (.call nnn) := rowBits_NNN _ _
theorem RowBits.seImm (x : Nibble) (nn : Byte) : RowBits.Statement (.seImm x nn) := rowBits_XNN _ _ _
theorem RowBits.sneImm (x : Nibble) (nn : Byte) : RowBits.Statement (.sneImm x nn) := rowBits_XNN _ _ _
theorem RowBits.seReg (x y ign : Nibble) : RowBits.Statement (.seReg x y ign) := rowBits_XYN _ _ _ _
theorem RowBits.ldImm (x : Nibble) (nn : Byte) : RowBits.Statement (.ldImm x nn) := rowBits_XNN _ _ _
theorem RowBits.addImm (x : Nibble) (nn : Byte) : RowBits.Statement (.addImm x nn) := rowBits_XNN _ _ _
theorem RowBits.ldReg (x y : Nibble) : RowBits.Statement (.ldReg x y) := rowBits_XY _ _ _ _
theorem RowBits.orReg (x y : Nibble) : RowBits.Statement (.orReg x y) := rowBits_XY _ _ _ _
theorem RowBits.andReg (x y : Nibble) : RowBits.Statement (.andReg x y) := rowBits_XY _ _ _ _
theorem RowBits.xorReg (x y : Nibble) : RowBits.Statement (.xorReg x y) := rowBits_XY _ _ _ _
theorem RowBits.addReg (x y : Nibble) : RowBits.Statement (.addReg x y) := rowBits_XY _ _ _ _
theorem RowBits.subReg (x y : Nibble) : RowBits.Statement (.subReg x y) := rowBits_XY _ _ _ _
theorem RowBits.shr (x ign : Nibble) : RowBits.Statement (.shr x ign) := rowBits_XY _ _ _ _
theorem RowBits.subnReg (x y : Nibble) : RowBits.Statement (.subnReg x y) := rowBits_XY _ _ _ _
theorem RowBits.shl (x ign : Nibble) : RowBits.Statement (.shl x ign) := rowBits_XY _ _ _ _
theorem RowBits.sneReg (x y ign : Nibble) : RowBits.Statement (.sneReg x y ign) := rowBits_XYN _ _ _ _
theorem RowBits.ldI (nnn : Addr) : RowBits.Statement (.ldI nnn) := rowBits_NNN _ _
theorem RowBits.jpV0 (nnn : Addr) : RowBits.Statement (.jpV0 nnn) := rowBits_NNN _ _
theorem RowBits.rnd (x : Nibble) (nn : Byte) : RowBits.Statement (.rnd x nn) := rowBits_XNN _ _ _
theorem RowBits.drw (x y n : Nibble) : RowBits.Statement (.drw x y n) := rowBits_XYN _ _ _ _
theorem RowBits.skp (x : Nibble) : RowBits.Statement (.skp x) := rowBits_X _ _ _
theorem RowBits.sknp (x : Nibble) : RowBits.Statement (.sknp x) := rowBits_X _ _ _
theorem RowBits.ldVxDt (x : Nibble) : RowBits.Statement (.ldVxDt x) := rowBits_X _ _ _
theorem RowBits.ldVxK (x : Nibble) : RowBits.Statement (.ldVxK x) := rowBits_X _ _ _
theorem RowBits.ldDtVx (x : Nibble) : RowBits.Statement (.ldDtVx x) := rowBits_X _ _ _
theorem RowBits.ldStVx (x : Nibble) : RowBits.Statement (.ldStVx x) := rowBits_X _ _ _
theorem RowBits.addI (x : Nibble) : RowBits.Statement (.addI x) := rowBits_X _ _ _
theorem RowBits.ldF (x : Nibble) : RowBits.Statement (.ldF x) := rowBits_X _ _ _
theorem RowBits.ldB (x : Nibble) : RowBits.Statement (.ldB x) := rowBits_X _ _ _
theorem RowBits.ldMemVx (x : Nibble) : RowBits.Statement (.ldMemVx x) := rowBits_X _ _ _
theorem RowBits.ldVxMem (x : Nibble) : RowBits.Statement (.ldVxMem x) := rowBits_X _ _ _

end Sys2Proof.Laws
end

