-- ==== Sys2Proof/Tests/Slice0.lean ====
section
/-! SUPPORT. The model's own tests: ill-formed terms, words written out from spec/30_encoding.md, vectors of
spec/95_test_vectors.md, and for each statement with hypotheses a state that meets them. -/

namespace Sys2Proof.Tests

open Sys2Proof.Machine

/-! ## Helpers -/

/-- Whether the outcome is a next state with the property. -/
def nextIs (o : Host.Outcome State Fault Refusal) (p : State → Bool) : Bool :=
  match o with
  | .next t => p t
  | .fault _ => false
  | .refused _ => false

/-- The reset state with some registers set. -/
def withRegs (l : List (Nibble × Byte)) (s : State) : State := l.foldl (fun s c => s.setReg c.1 c.2) s

/-- The reset state with the word at the pc, and the parameters given. -/
def at200 (w : Nat) (cfg : Config := specConfig) : State := { State.reset with cfg := cfg }.withFetchWord 16 w

/-- One sprite row at I = 0x300, drawn at (0, 0), over the framebuffer given. -/
def spriteRow (row : Byte) (f : Framebuffer) : State :=
  { State.reset.memWrite 0x300 row with i := 0x300, fb := f }

def wrapConfig : Config := { specConfig with memOob := .wrap, fbEdge := .wrap }
def tickConfig : Config := { specConfig with tickInStep := true }
def strictConfig : Config := { specConfig with strictDecode := true }

/-! ## Ill-formed terms -/

theorem test_illformed_cls : Instr.wellFormed true (.cls 1) = false := by decide
theorem test_illformed_ret : Instr.wellFormed true (.ret 15) = false := by decide
theorem test_illformed_seReg : Instr.wellFormed true (.seReg 1 2 1) = false := by decide
theorem test_illformed_sneReg : Instr.wellFormed true (.sneReg 1 2 8) = false := by decide
theorem test_wellformed_lenient : Instr.wellFormed false (.cls 1) = true := by decide

/-! ## Words written out from the patterns of R76 -/

theorem test_decode_display_control :
    decode false 0b0000000011100000 = .ok (.cls 0) ∧ decode false 0b0000000011101110 = .ok (.ret 0) ∧
    decode false 0b0001001000110100 = .ok (.jp 0x234) ∧ decode false 0b0010001100000000 = .ok (.call 0x300) ∧
    decode false 0b1011001100000000 = .ok (.jpV0 0x300) ∧ decode false 0b1101000100100101 = .ok (.drw 1 2 5) := by
  decide

theorem test_decode_skips :
    decode false 0b0011001100000111 = .ok (.seImm 3 0x07) ∧ decode false 0b0100001100000111 = .ok (.sneImm 3 0x07) ∧
    decode false 0b0101000100100000 = .ok (.seReg 1 2 0) ∧ decode false 0b1001000100100000 = .ok (.sneReg 1 2 0) ∧
    decode false 0b1110000110011110 = .ok (.skp 1) ∧ decode false 0b1110000110100001 = .ok (.sknp 1) := by
  decide

theorem test_decode_alu :
    decode false 0b0110101000000101 = .ok (.ldImm 0xA 0x05) ∧ decode false 0b0111000100000010 = .ok (.addImm 1 0x02) ∧
    decode false 0b1000000100100000 = .ok (.ldReg 1 2) ∧ decode false 0b1000000100100001 = .ok (.orReg 1 2) ∧
    decode false 0b1000000100100010 = .ok (.andReg 1 2) ∧ decode false 0b1000000100100011 = .ok (.xorReg 1 2) ∧
    decode false 0b1000101010110100 = .ok (.addReg 0xA 0xB) ∧ decode false 0b1000000100100101 = .ok (.subReg 1 2) ∧
    decode false 0b1000000100100110 = .ok (.shr 1 2) ∧ decode false 0b1000000100100111 = .ok (.subnReg 1 2) ∧
    decode false 0b1000000100001110 = .ok (.shl 1 0) := by
  decide

theorem test_decode_index_memory :
    decode false 0b1010001011110000 = .ok (.ldI 0x2F0) ∧ decode false 0b1111000100011110 = .ok (.addI 1) ∧
    decode false 0b1111001000101001 = .ok (.ldF 2) ∧ decode false 0b1111000000110011 = .ok (.ldB 0) ∧
    decode false 0b1111001101010101 = .ok (.ldMemVx 3) ∧ decode false 0b1111001001100101 = .ok (.ldVxMem 2) := by
  decide

theorem test_decode_io_timers :
    decode false 0b1100001100001111 = .ok (.rnd 3 0x0F) ∧ decode false 0b1111010100000111 = .ok (.ldVxDt 5) ∧
    decode false 0b1111001000001010 = .ok (.ldVxK 2) ∧ decode false 0b1111010100010101 = .ok (.ldDtVx 5) ∧
    decode false 0b1111000100011000 = .ok (.ldStVx 1) := by
  decide

/-- V2, V4, V6, V7. -/
theorem test_decode_unsupported :
    [0x0123, 0x8008, 0x800F, 0xE000, 0xF000, 0xF0FF, 0x0000].all
      (fun w => decode false w == .error (.unsupportedInstruction w)) ∧
    decode true 0x01E0 = .error (.unsupportedInstruction 0x01E0) ∧
    decode true 0x5121 = .error (.unsupportedInstruction 0x5121) := by
  decide

/-- The high byte comes first (R52), and too few bytes are rejected. -/
theorem test_decodeBytes :
    decodeBytes false [0x6A, 0x05, 0x12] = .ok (.ldImm 0xA 0x05, [0x12]) ∧
    decodeBytes false [0x6A] = .error .truncated := by
  decide

theorem test_decodeTableWord : decodeTableWord 16 0x8AB4 = some (.addReg 0xA 0xB) := by decide

/-! ## One step of a fetched word -/

/-- S8, first step. -/
theorem test_step_ldImm : nextIs (step (at200 0x6A05)) (fun t => t.reg 0xA == 5 && t.pc == 0x202) = true := by decide

/-- V1. -/
theorem test_step_unsupported :
    nextIs (step State.reset) (fun t => t.run == .halted && t.pc == 0x200 &&
      t.err == some ⟨.unsupportedInstruction, 0x200, some 0x0000, .noInfo⟩) = true := by decide

/-- V10: under wrap the fetch at 0xFFF takes its low byte from 0x000, the font byte F0. -/
theorem test_step_fetch_wraps :
    nextIs (step { (State.reset.memWrite 0xFFF 0x12) with pc := 0xFFF, cfg := wrapConfig })
      (fun t => t.pc == 0x2F0) = true := by decide

/-- V13, V122. -/
theorem test_step_tick :
    nextIs (step { at200 0x6000 tickConfig with dt := 5 }) (fun t => t.dt == 4) = true ∧
    stepResult (withRegs [(1, 1)] (at200 0xF118 tickConfig)) = .ok true := by decide

/-- V14: a failing step performs no tick. -/
theorem test_step_error_no_tick :
    nextIs (step { at200 0x0000 tickConfig with dt := 5 }) (fun t => t.dt == 5 && t.run == .halted) = true := by decide

/-! ## Control transfer -/

/-- V22, V23. -/
theorem test_call :
    nextIs (exec (.call 0x300) State.reset) (fun t => t.stack[0] == 0x200 && t.sp == 1 && t.pc == 0x300) = true ∧
    nextIs (exec (.call 0x300) { State.reset with sp := 16 })
      (fun t => t.err == some ⟨.callStackOverflow, 0x200, some 0x2300, .stackPointer 16⟩) = true := by decide

/-- V24, V25. -/
theorem test_ret :
    nextIs (exec (.ret 0) { State.reset with sp := 2, stack := State.reset.stack.set 1 0x0456 })
      (fun t => t.sp == 1 && t.pc == 0x458) = true ∧
    nextIs (exec (.ret 0) State.reset)
      (fun t => t.err == some ⟨.callStackUnderflow, 0x200, some 0x00EE, .stackPointer 0⟩) = true := by decide

/-- V20, V34. -/
theorem test_jumps :
    nextIs (exec (.jp 0x234) State.reset) (fun t => t.pc == 0x234) = true ∧
    nextIs (exec (.jpV0 0xFFF) (withRegs [(0, 0xFF)] State.reset)) (fun t => t.pc == 0x10FE) = true := by decide

/-- V27, V29. -/
theorem test_skip_immediate :
    nextIs (exec (.seImm 3 7) (withRegs [(3, 7)] State.reset)) (fun t => t.pc == 0x204) = true ∧
    nextIs (exec (.sneImm 3 7) (withRegs [(3, 7)] State.reset)) (fun t => t.pc == 0x202) = true := by decide

/-- V31. -/
theorem test_skip_registers :
    nextIs (exec (.seReg 1 2 0) (withRegs [(1, 0x10), (2, 0x11)] State.reset)) (fun t => t.pc == 0x202) = true ∧
    nextIs (exec (.sneReg 1 2 0) (withRegs [(1, 0x10), (2, 0x11)] State.reset)) (fun t => t.pc == 0x204) = true := by
  decide

/-! ## Arithmetic and logic -/

/-- V42, V44. -/
theorem test_addImm_ldReg :
    nextIs (exec (.addImm 1 2) (withRegs [(1, 0xFF), (15, 0xAA)] State.reset))
      (fun t => t.reg 1 == 1 && t.reg 15 == 0xAA) = true ∧
    nextIs (exec (.ldReg 1 2) (withRegs [(2, 0x5A)] State.reset)) (fun t => t.reg 1 == 0x5A) = true := by decide

/-- V45 to V47. -/
theorem test_logic :
    nextIs (exec (.orReg 1 2) (withRegs [(1, 0xF0), (2, 0x0F)] State.reset)) (fun t => t.reg 1 == 0xFF) = true ∧
    nextIs (exec (.andReg 1 2) (withRegs [(1, 0xF3), (2, 0x3F)] State.reset)) (fun t => t.reg 1 == 0x33) = true ∧
    nextIs (exec (.xorReg 1 2) (withRegs [(1, 0xFF), (2, 0x0F)] State.reset)) (fun t => t.reg 1 == 0xF0) = true := by
  decide

/-- V48, V50. -/
theorem test_add :
    nextIs (exec (.addReg 1 2) (withRegs [(1, 0xFF), (2, 1)] State.reset))
      (fun t => t.reg 1 == 0 && t.reg 15 == 1) = true ∧
    nextIs (exec (.addReg 15 1) (withRegs [(15, 0xFF), (1, 1)] State.reset)) (fun t => t.reg 15 == 1) = true := by
  decide

/-- V54, V59. -/
theorem test_sub :
    nextIs (exec (.subReg 1 2) (withRegs [(1, 3), (2, 5)] State.reset))
      (fun t => t.reg 1 == 0xFE && t.reg 15 == 1) = true ∧
    nextIs (exec (.subnReg 1 2) (withRegs [(1, 5), (2, 3)] State.reset))
      (fun t => t.reg 1 == 0xFE && t.reg 15 == 1) = true := by decide

/-- V60, V63. -/
theorem test_shifts :
    nextIs (exec (.shr 1 2) (withRegs [(1, 5), (2, 0xFF)] State.reset))
      (fun t => t.reg 1 == 2 && t.reg 15 == 1) = true ∧
    nextIs (exec (.shl 1 0) (withRegs [(1, 0x81)] State.reset)) (fun t => t.reg 1 == 2 && t.reg 15 == 1) = true := by
  decide

/-! ## Index register and memory -/

/-- V73, V76. -/
theorem test_index :
    nextIs (exec (.addI 1) (withRegs [(1, 0xFF)] { State.reset with i := 0xFFF0 }))
      (fun t => t.i == 0x00EF && t.reg 15 == 1) = true ∧
    nextIs (exec (.ldF 15) (withRegs [(15, 0xFF)] State.reset)) (fun t => t.i == 0x04FB) = true ∧
    nextIs (exec (.ldI 0x2F0) State.reset) (fun t => t.i == 0x2F0) = true := by decide

/-- V77, V86. -/
theorem test_bcd :
    nextIs (exec (.ldB 0) (withRegs [(0, 0xFF)] { State.reset with i := 0x300 }))
      (fun t => t.memRead 0x300 == 2 && t.memRead 0x301 == 5 && t.memRead 0x302 == 5 && t.i == 0x300) = true ∧
    nextIs (exec (.ldB 0) (withRegs [(0, 0xEA)] { State.reset with i := 0xFFF, cfg := wrapConfig }))
      (fun t => t.memRead 0xFFF == 2 && t.memRead 0 == 3 && t.memRead 1 == 4) = true := by decide

/-- V79. -/
theorem test_bcd_out_of_bounds :
    nextIs (exec (.ldB 0) { State.reset with i := 0xFFE })
      (fun t => t.err == some ⟨.outOfBoundsAccess, 0x200, some 0xF033, .memoryAt 0x1000⟩ && t.mem == []) = true := by
  decide

/-- V80. -/
theorem test_dump :
    nextIs (exec (.ldMemVx 0) (withRegs [(0, 0xAB), (1, 0xCD)] { State.reset with i := 0x300 }))
      (fun t => t.memRead 0x300 == 0xAB && t.memRead 0x301 == 0) = true := by decide

/-- V83, V85. -/
theorem test_load :
    nextIs (exec (.ldVxMem 4) State.reset) (fun t => t.v.toList.take 5 == [0xF0, 0x90, 0x90, 0x90, 0xF0]) = true ∧
    nextIs (exec (.ldVxMem 0) { State.reset with i := 0x1000 })
      (fun t => t.err == some ⟨.outOfBoundsAccess, 0x200, some 0xF065, .memoryAt 0x1000⟩) = true := by decide

/-- Writing what an unlisted address reads as removes the entry. -/
theorem test_memory_canonical :
    ((State.reset.memWrite 0x300 7).memWrite 0x300 0).mem = [] ∧
    (State.reset.memWrite 0 0xF0).mem = [] ∧
    ((State.reset.memWrite 0x301 7).memWrite 0x300 1).mem = [(0x300, 1), (0x301, 7)] := by decide

/-! ## Display -/

/-- V90. -/
theorem test_cls :
    nextIs (exec (.cls 0) { State.reset with fb := [(0, 1), (2047, 1)] })
      (fun t => t.fb == [] && t.pc == 0x202) = true := by decide

/-- V92; V93, glyph 0 in columns 60 to 63; V99; and R171's pseudocode by hand over a cell that is set (log entry 9): the
first draw clears it and collides, the second sets it and does not. -/
theorem test_draw :
    nextIs (exec (.drw 1 2 1) (spriteRow 0xC0 [(0, 1)])) (fun t => t.fb == [(1, 1)] && t.reg 15 == 1) = true ∧
    nextIs (exec (.drw 1 2 5) (withRegs [(1, 60)] State.reset))
      (fun t => t.fb.length == 14 && t.fb.cell 63 == 1 && t.fb.cell (61 + 64) == 0 && t.reg 15 == 0) = true ∧
    nextIs (exec (.drw 1 2 0) (withRegs [(15, 0xAA)] { State.reset with i := 0xFFFF })) (fun t => t.reg 15 == 0) = true ∧
    nextIs (exec (.drw 0 1 1) (spriteRow 0x80 [(0, 1)])) (fun t => t.fb == [] && t.reg 15 == 1 &&
      nextIs (exec (.drw 0 1 1) t) fun u => u.fb == [(0, 1)] && u.reg 15 == 0) = true := by
  decide +kernel

/-- V94, V95, V98; V96, V97: clip drops row 4, wrap draws it in row 0. -/
theorem test_draw_edges :
    nextIs (exec (.drw 1 2 5) (withRegs [(1, 61)] State.reset))
      (fun t => t.err == some ⟨.outOfBoundsAccess, 0x200, some 0xD125, .framebufferAt 64 0⟩ && t.fb == []) = true ∧
    nextIs (exec (.drw 1 2 5) (withRegs [(2, 28)] State.reset))
      (fun t => t.err == some ⟨.outOfBoundsAccess, 0x200, some 0xD125, .framebufferAt 0 32⟩ && t.fb == []) = true ∧
    nextIs (exec (.drw 1 2 3) { State.reset with i := 0xFFE })
      (fun t => t.err == some ⟨.outOfBoundsAccess, 0x200, some 0xD123, .memoryAt 0x1000⟩) = true ∧
    nextIs (exec (.drw 1 2 5) (withRegs [(2, 28)] { State.reset with cfg := { specConfig with fbEdge := .clip } }))
      (fun t => t.fb.length == 10 && t.reg 15 == 0) = true ∧
    nextIs (exec (.drw 1 2 5) (withRegs [(2, 28)] { State.reset with cfg := wrapConfig }))
      (fun t => t.fb.length == 14 && t.fb.take 4 == [(0, 1), (1, 1), (2, 1), (3, 1)] && t.reg 15 == 0) = true := by
  decide +kernel

/-! ## Random, keys, timers -/

/-- V110. -/
theorem test_rnd :
    nextIs (exec (.rnd 3 0x0F) (State.reset.supplyRnd 0xB6)) (fun t => t.reg 3 == 6 && t.rndIn == []) = true := by decide

/-- V113, V115. -/
theorem test_key_skips :
    nextIs (exec (.skp 1) (withRegs [(1, 0xA)] (State.reset.setKeys 0x0400))) (fun t => t.pc == 0x204) = true ∧
    nextIs (exec (.sknp 1) (withRegs [(1, 0xA)] (State.reset.setKeys 0x0400))) (fun t => t.pc == 0x202) = true ∧
    nextIs (exec (.skp 1) (withRegs [(1, 0x10)] State.reset))
      (fun t => t.err == some ⟨.outOfBoundsAccess, 0x200, some 0xE19E, .keyAt 16⟩) = true := by decide

/-- V117, V118. -/
theorem test_wait_for_key :
    nextIs (exec (.ldVxK 2) (State.reset.setKeys 0x0088)) (fun t => t.reg 2 == 3 && t.pc == 0x202) = true ∧
    nextIs (exec (.ldVxK 2) State.reset) (fun t => t == State.reset) = true := by decide

/-- V116, V119, V121. -/
theorem test_timers :
    nextIs (exec (.ldVxDt 5) { State.reset with dt := 0x3C }) (fun t => t.reg 5 == 0x3C) = true ∧
    nextIs (exec (.ldDtVx 5) (withRegs [(5, 0x3C)] State.reset)) (fun t => t.dt == 0x3C) = true ∧
    nextIs (exec (.ldStVx 1) (withRegs [(1, 1)] State.reset)) (fun t => t.st == 1) = true := by decide

/-- S10. -/
theorem test_tick_beeps_once :
    { State.reset with st := 1 }.tickResult = true ∧ { State.reset with st := 1 }.tick.st = 0 ∧
    { State.reset with st := 1 }.tick.tickResult = false := by decide

/-- V132, V134. -/
theorem test_reset :
    (State.reset.resetWith none).err = some ⟨.programLoadError, 0x200, none, .imageLength 0⟩ ∧
    (State.reset.resetWith (some [0x00, 0xE0])).memRead 0x201 = 0xE0 ∧
    State.reset.resetWith (some []) = State.reset := by decide

/-! ## Witnesses: for each statement with hypotheses, a state and operands that meet them -/

/-- What a `nextIs` witness says in the form of the statements. -/
theorem exists_of_nextIs {o : Host.Outcome State Fault Refusal} {p : State → Bool} (h : nextIs o p = true) :
    ∃ t, o = .next t ∧ p t = true := by
  cases o with
  | next t => exact ⟨t, rfl, h⟩
  | fault _ => simp [nextIs] at h
  | refused _ => simp [nextIs] at h

/-- Halted by RET with an empty stack. -/
def haltedState : State := State.reset.raise .callStackUnderflow (some 0x00EE) (.stackPointer 0)

/-- A running state whose first keys are pressed as the word says and whose V0 is b. -/
def keysAnd (k : Word) (b : Byte) : State := withRegs [(0, b)] (State.reset.setKeys k)

theorem witness_DecodeEncodeAgree :
    Instr.wellFormed true (.cls 0) = true ∧ Instr.wellFormed false (.seReg 1 2 15) = true ∧
    Instr.wellFormed true (.shr 15 15) = true := by decide

theorem witness_DecodedInstructionEncodesToItsWord :
    decode true 0xFF65 = .ok (.ldVxMem 15) ∧
    decode false 0x0FEE = .ok (.ret 15) := by decide

theorem witness_DecodeFollowsOpcodeMap :
    decode true 0x6A05 = .ok (.ldImm 0xA 5) ∧ decode false 0x0000 = .error (.unsupportedInstruction 0) ∧
    (∀ r ∈ opcodeRows, r.selects false 0x0000 = false) := by decide

theorem witness_OpcodeRowsDisjoint :
    (Instr.jp 0).row ∈ opcodeRows ∧ (Instr.jp 0).row.selects false 0x1234 = true ∧
    (Instr.cls 0).row.selects true 0x00E0 = true := by decide

theorem witness_StepRunsDecodedInstruction :
    (at200 0x6A05).run = .running ∧ (at200 0x6A05).outOfBounds ((at200 0x6A05).pc.toNat + 1) = false ∧
    decode false (wordOfBytes ((at200 0x6A05).memRead 0x200) ((at200 0x6A05).memRead 0x201)) = .ok (.ldImm 0xA 5) ∧
    nextIs (exec (.ldImm 0xA 5) (at200 0x6A05)) (fun t => !t.cfg.tickInStep) = true := by decide

theorem witness_HaltedStepChangesNothing : haltedState.run = .halted := by decide

theorem witness_FetchBoundsCheck :
    (State.reset.cfg.memOob = .fault ∧ 4096 ≤ (State.reset.setPc 0xFFF).pc.toNat + 1) ∧
    (State.reset.setPc 0xFFE).pc.toNat + 1 < 4096 ∧
    ({ State.reset.setPc 0xFFF with cfg := wrapConfig }.cfg.memOob = .wrap) ∧
    (State.reset.setPc 0xFFF).run = .running := by decide

theorem witness_UnsupportedWordHalts :
    State.reset.run = .running ∧ State.reset.fetch = .ok 0x0000 ∧
    (∀ r ∈ opcodeRows, r.selects State.reset.cfg.strictDecode 0x0000 = false) := by decide

theorem witness_ErrorsArePrecise :
    State.reset.run = .running ∧ nextIs (step State.reset) (fun t => t.run == .halted) = true := by decide

/-- RET, and SKP as the last of its errors' range begins. -/
theorem witness_InstructionRaisesOnlyItsErrors :
    State.reset.run = .running ∧ nextIs (exec (.ret 0) State.reset) (fun t => t.run == .halted) = true ∧
    nextIs (exec (.skp 0) (keysAnd 0 16)) (fun t => t.run == .halted) = true := by decide

theorem witness_TickEndsStepWhenCoupled :
    ((at200 0x6000 tickConfig).fetchDecode = .ok (.ldImm 0 0) ∧ (at200 0x6000 tickConfig).cfg.tickInStep = true ∧
      nextIs (exec (.ldImm 0 0) (at200 0x6000 tickConfig)) (fun t => t.run == .running) = true) ∧
    ((at200 0x6000).fetchDecode = .ok (.ldImm 0 0) ∧ (at200 0x6000).cfg.tickInStep = false ∧
      nextIs (exec (.ldImm 0 0) (at200 0x6000)) (fun t => t.run == .running) = true) ∧
    ((at200 0x00EE tickConfig).fetchDecode = .ok (.ret 0) ∧
      nextIs (exec (.ret 0) (at200 0x00EE tickConfig)) (fun t => t.run == .halted) = true) := by decide

theorem witness_IdleAndHaltedStatesStay :
    (at200 0x1200).idleAt 0x200 ∧ (at200 0x1200).cfg.tickInStep = false ∧
    (at200 0x1200 tickConfig).idleAt 0x200 ∧ (at200 0x1200 tickConfig).cfg.tickInStep = true ∧
    haltedState.run = .halted := by
  unfold State.idleAt
  decide

theorem witness_StepKeepsInvariant :
    State.reset.Inv ∧ nextIs (step State.reset) (fun _ => true) = true ∧
    (at200 0x6A05).Inv ∧ nextIs (step (at200 0x6A05)) (fun _ => true) = true := by
  unfold State.Inv
  decide

theorem witness_PcStaysBounded :
    State.reset.cfg.memOob = .fault ∧ State.reset.PcBounded ∧ State.reset.fetch = .ok 0x0000 ∧
    nextIs (step State.reset) (fun _ => true) = true := by
  unfold State.PcBounded
  decide

theorem witness_StepKeepsKeysAndParameters : nextIs (step State.reset) (fun _ => true) = true := by decide

/-- CALL at SP = 15, the last that does not overflow, and ADD. -/
theorem witness_OnlyListedInstructionsWrite :
    nextIs (exec (.call 0x300) { State.reset with sp := 15 }) (fun t => t.sp == 16) = true ∧
    nextIs (exec (.addReg 15 1) State.reset) (fun _ => true) = true := by decide

theorem witness_OnlyResetLeavesHalted :
    haltedState.run = .halted ∧ (haltedState.apply (.reset (some [0x12, 0x00]))).run = .running ∧
    ([] : List Byte).length ≤ 3584 ∧ (List.replicate 3584 (0x11 : Byte)).length ≤ 3584 := by
  exact ⟨by decide, by decide, by decide, Nat.le_of_eq List.length_replicate⟩

theorem witness_CallPushesItsAddress :
    State.reset.sp.val < 16 ∧ { State.reset with sp := 15 }.sp.val < 16 ∧
    { State.reset with sp := 16 }.sp.val = 16 := by decide

theorem witness_ReturnGoesTwoPastCallSite :
    { State.reset with sp := 1 }.sp.val = (0 : Fin 16).val + 1 ∧
    { State.reset with sp := 16 }.sp.val = (15 : Fin 16).val + 1 ∧ State.reset.sp.val = 0 := by decide

/-- A call from 0x200, one instruction of the body, and the return. -/
theorem witness_BalancedCallReturnsPastCallSite :
    ∃ t u w, exec (.call 0x300) State.reset = .next t ∧ t.run = .running ∧ Balanced t u ∧
      exec (.ret 0) u = .next w ∧ w.run = .running :=
  ⟨_, _, _, rfl, rfl, .other (.ldImm 1 1) (by intro n h; cases h) (by intro n h; cases h) rfl rfl, rfl, rfl⟩

theorem witness_RegisterSkips : (15 : Nibble) ≠ 0 := by decide

theorem witness_BcdStoresDigits :
    { State.reset with i := 0xFFD }.i.toNat + 2 < 4096 ∧
    { State.reset with i := 0xFFF, cfg := wrapConfig }.cfg.memOob ≠ .fault ∧
    State.reset.cfg.memOob = .fault ∧ 4096 ≤ { State.reset with i := 0xFFE }.i.toNat + 2 := by decide

/-- The last register of each range at the last address of memory, and one past it. -/
theorem witness_DumpStoresRegisters_LoadReadsRegisters :
    { State.reset with i := 0xFF0 }.i.toNat + (15 : Nibble).val < 4096 ∧
    { State.reset with i := 0xFFF }.i.toNat + (0 : Nibble).val < 4096 ∧
    { State.reset with i := 0xFFFF, cfg := wrapConfig }.cfg.memOob ≠ .fault ∧
    State.reset.cfg.memOob = .fault ∧ 4096 ≤ { State.reset with i := 0xFF1 }.i.toNat + (15 : Nibble).val ∧
    4096 ≤ { State.reset with i := 0x1000 }.i.toNat + (0 : Nibble).val := by decide

theorem witness_DumpThenLoadRestores :
    { State.reset with i := 0xFF0 }.i.toNat + (15 : Nibble).val < 4096 ∧
    nextIs (exec (.ldMemVx 15) { State.reset with i := 0xFF0 }) (fun _ => true) = true := by decide

/-- Program P7: the dump at 0x206 covers 0x208 and 0x209. -/
theorem witness_StoredCodeIsFetched :
    { State.reset with i := 0x208, pc := 0x206 }.i.toNat + (1 : Nibble).val < 4096 ∧
    nextIs (exec (.ldMemVx 1) { State.reset with i := 0x208, pc := 0x206 })
      (fun t => t.pc.toNat == 0x208 + (0 : Nibble).val) = true ∧
    (1 : Nibble) ≤ 1 ∧ (1 : Nibble).val = (0 : Nibble).val + 1 := by decide

/-- Drawable, covering a cell; with a collision (V92), and without one. -/
theorem witness_Draw_drawable :
    (spriteRow 0xC0 [(0, 1)]).drawable 0 0 1 ∧
    (∃ k, (spriteRow 0xC0 [(0, 1)]).covers 0 0 1 k ∧ (spriteRow 0xC0 [(0, 1)]).fb.cell k = 1) ∧
    (∃ k, ¬ (spriteRow 0xC0 [(0, 1)]).covers 0 0 1 k) ∧
    (spriteRow 0xC0 []).drawable 0 0 1 ∧ ∀ k, (spriteRow 0xC0 []).fb.cell k ≠ 1 := by
  refine ⟨by unfold State.drawable; decide, ⟨0, ⟨0, by decide, 0, by decide, by decide, by decide⟩, by decide⟩,
    ⟨2048, ?_⟩, by unfold State.drawable; decide, fun k => show (0 : Byte) ≠ 1 by decide⟩
  rintro ⟨r, hr, c, hc, -, h⟩
  have : r = 0 := by omega
  subst this
  revert h
  revert c
  decide

/-- A row past the end of memory, and a set bit past the right edge. -/
theorem witness_Draw_not_drawable :
    ¬ { State.reset with i := 0xFFE }.drawable 0 0 3 ∧ ¬ State.reset.drawable 61 0 5 := by
  constructor
  · intro h
    exact absurd (h 2 (by decide)).1 (by decide)
  · intro h
    exact (h 0 (by decide)).2 3 (by decide) (by decide) (by decide)

/-- A sprite over a clear cell, and one whose only set bit falls on a set cell. -/
theorem witness_DoubleDrawRestores :
    (spriteRow 0x80 []).drawable 0 0 1 ∧
    nextIs (exec (.drw 0 1 1) (spriteRow 0x80 [])) (fun t => t.reg 0 == 0 && t.reg 1 == 0) = true ∧
    (∃ k, (spriteRow 0x80 []).covers 0 0 1 k ∧ (spriteRow 0x80 []).fb.cell k = 0) ∧
    (spriteRow 0x80 [(0, 1)]).drawable 0 0 1 ∧
    ∀ k, (spriteRow 0x80 [(0, 1)]).covers 0 0 1 k → (spriteRow 0x80 [(0, 1)]).fb.cell k = 1 := by
  refine ⟨by unfold State.drawable; decide, by decide, ⟨0, ⟨0, by decide, 0, by decide, by decide, by decide⟩, by decide⟩,
    by unfold State.drawable; decide, ?_⟩
  rintro k ⟨r, hr, c, hc, hb, h⟩
  have hr0 : r = 0 := by omega
  subst hr0
  have hc0 : ∀ c < 8, (spriteRow 0x80 [(0, 1)]).spriteBit 0 c = true → c = 0 := by decide
  obtain rfl := hc0 c hc hb
  have hk : (Placement.cell 0) = .cell k := h
  cases hk
  rfl

/-- V101's case, a sprite over clear cells: with a set bit, and without one. -/
theorem witness_SecondDrawOverClearCellsCollides :
    (spriteRow 0x80 []).drawable 0 0 1 ∧ (spriteRow 0x80 []).cfg.fbEdge ≠ .clip ∧
    (∀ k, (spriteRow 0x80 []).covers 0 0 1 k → (spriteRow 0x80 []).fb.cell k = 0) ∧
    nextIs (exec (.drw 0 1 1) (spriteRow 0x80 [])) (fun t => t.reg 0 == 0 && t.reg 1 == 0) = true ∧
    (∃ r < 1, ∃ c < 8, (spriteRow 0x80 []).spriteBit r c = true) ∧
    (spriteRow 0x00 []).drawable 0 0 1 ∧ ∀ r < 1, ∀ c < 8, (spriteRow 0x00 []).spriteBit r c = false := by
  refine ⟨by unfold State.drawable; decide, by decide, fun k _ => rfl, by decide, ⟨0, by decide, 0, by decide, by decide⟩,
    by unfold State.drawable; decide, by decide⟩

theorem witness_RandomDrawTakesOneByte :
    (State.reset.supplyRnd 0xB6).rndIn = 0xB6 :: [] ∧ State.reset.rndIn = [] := by decide

theorem witness_OnlyRandomAndReadsRandomByte :
    (at200 0xC30F).run = .running ∧ (at200 0xC30F).fetchDecode = .ok (.rnd 3 0x0F) ∧
    ∀ x nn, (at200 0x6A05).fetchDecode ≠ .ok (.rnd x nn) := by
  refine ⟨by decide, by decide, fun x nn h => ?_⟩
  have h' : Except.ok (ε := State) (Instr.ldImm 0xA 5) = .ok (.rnd x nn) := h
  cases h'

theorem witness_KeySkips :
    ((keysAnd 0x8000 15).reg 0).toNat = (15 : Fin 16).val ∧ (keysAnd 0x8000 15).key[(15 : Fin 16)] = true ∧
    ((keysAnd 0x8000 0).reg 0).toNat = (0 : Fin 16).val ∧ (keysAnd 0x8000 0).key[(0 : Fin 16)] = false ∧
    15 < ((keysAnd 0 16).reg 0).toNat := by decide

theorem witness_WaitForKeyTakesLeastKey :
    (keysAnd 0x8000 0).key[(15 : Fin 16)] = true ∧ (∀ j : Fin 16, j < 15 → (keysAnd 0x8000 0).key[j] = false) ∧
    (keysAnd 0xFFFF 0).key[(0 : Fin 16)] = true ∧ ∀ j : Fin 16, State.reset.key[j] = false := by decide

theorem witness_TickCountsDown_OneBeepOnLastTick :
    State.reset.run = .running ∧ haltedState.run = .halted ∧
    { State.reset with st := 0xFF }.run = .running := by decide

theorem witness_ResetLeavesResetState_RefusedLoadHalts :
    ([] : List Byte).length ≤ 3584 ∧ (List.replicate 3584 (0x11 : Byte)).length ≤ 3584 ∧
    (∀ l, some (List.replicate 3585 (0x11 : Byte)) = some l → 3584 < l.length) ∧
    ∀ l : List Byte, none = some l → 3584 < l.length := by
  refine ⟨by decide, Nat.le_of_eq List.length_replicate, ?_, fun l h => nomatch h⟩
  rintro l ⟨⟩
  exact Nat.lt_of_lt_of_eq (by decide) List.length_replicate.symm

end Sys2Proof.Tests
end

section
/-! PROOFS. The reset state (R44, R230 to R232): what `clear` and an accepted `resetWith` leave in every element. -/

namespace Sys2Proof.Machine

/-! ## clear, one lemma per field -/

@[simp] theorem State.clear_v (s : State) : s.clear.v = Vector.replicate 16 0 := rfl
@[simp] theorem State.clear_i (s : State) : s.clear.i = 0 := rfl
@[simp] theorem State.clear_pc (s : State) : s.clear.pc = 0x200 := rfl
@[simp] theorem State.clear_stack (s : State) : s.clear.stack = Vector.replicate 16 0 := rfl
@[simp] theorem State.clear_sp (s : State) : s.clear.sp = 0 := rfl
@[simp] theorem State.clear_fb (s : State) : s.clear.fb = [] := rfl
@[simp] theorem State.clear_dt (s : State) : s.clear.dt = 0 := rfl
@[simp] theorem State.clear_st (s : State) : s.clear.st = 0 := rfl
@[simp] theorem State.clear_key (s : State) : s.clear.key = Vector.replicate 16 false := rfl
@[simp] theorem State.clear_run (s : State) : s.clear.run = .running := rfl
@[simp] theorem State.clear_err (s : State) : s.clear.err = none := rfl

/-- The cleared memory holds the font and zeros. -/
theorem State.memRead_clear (s : State) (a : Nat) :
    s.clear.memRead a = Memory.background s.cfg.font (a % 4096) := rfl

/-- Every cell of the empty framebuffer is 0. -/
@[simp] theorem Framebuffer.cell_nil (k : Nat) : Framebuffer.cell [] k = 0 := rfl

/-! ## An accepted reset -/

/-- An image of at most 3584 bytes is stored from 0x200 on in the cleared state (R231). -/
theorem State.resetWith_of_length_le (s : State) {image : List Byte} (h : image.length ≤ 3584) :
    s.resetWith (some image) = s.clear.storeBytes 0x200 image :=
  if_neg (Nat.not_lt.2 h)

/-- The load of an image of at most 3584 bytes is answered with ok (R230). -/
theorem resetResult_of_length_le {image : List Byte} (h : image.length ≤ 3584) :
    resetResult (some image) = .ok :=
  if_neg (Nat.not_lt.2 h)

/-- Memory after an accepted reset: byte `i` of the image at `0x200 + i`, and the font and zeros where the image
does not lie (R44, R231). The image ends at 0xFFF at the latest, so no address of it wraps. -/
theorem State.memRead_resetWith (s : State) {image : List Byte} (hl : image.length ≤ 3584) {a : Nat} (ha : a < 4096) :
    (s.resetWith (some image)).memRead a =
      if h : 0x200 ≤ a ∧ a < 0x200 + image.length then image[a - 0x200]'(by omega)
      else Memory.background s.cfg.font a := by
  rw [s.resetWith_of_length_le hl]
  split
  case isTrue h =>
    exact State.memRead_storeBytes_inside _ _ _ (by omega) (a - 0x200) (by omega) (by rw [Nat.add_sub_of_le h.1])
  case isFalse h =>
    rw [State.memRead_storeBytes_outside _ _ _ (by omega), State.memRead_clear, Nat.mod_eq_of_lt ha]

/-- Settles O52: an accepted reset is the cleared state with the image stored in its memory, and storing changes
memory alone. -/
theorem resetLeavesResetState : Obligations.ResetLeavesResetState := by
  unfold Obligations.ResetLeavesResetState
  intro s image hl t
  have ht : t = s.clear.storeBytes 0x200 image := s.resetWith_of_length_le hl
  refine ⟨fun a ha => s.memRead_resetWith hl ha, fun r => ?_, fun k => ?_, ?_⟩
  · simp [ht, State.reg]
  · simp [ht]
  · simp [ht, resetResult_of_length_le hl]

end Sys2Proof.Machine
end

section
/-! PROOFS. The fetch (R52, R55, R92): the word it gives, the error it raises, and the step that error ends. -/

namespace Sys2Proof.Machine

/-! ## The fetched word -/

/-- An address is read modulo 4096 (R53). -/
@[simp] theorem State.memRead_mod (s : State) (a : Nat) : s.memRead (a % 4096) = s.memRead a :=
  congrArg (Cells.read _ s.mem) (Nat.mod_mod a 4096)

/-- A fetch whose second byte is in bounds gives the word of the bytes at `pc` and `pc + 1` (R52, R92). -/
theorem State.fetch_of_inBounds {s : State} (h : s.outOfBounds (s.pc.toNat + 1) = false) :
    s.fetch = .ok (wordOfBytes (s.memRead s.pc.toNat) (s.memRead (s.pc.toNat + 1))) :=
  if_neg (Bool.eq_false_iff.1 h)

/-- A fetch whose second byte is out of bounds raises OutOfBoundsAccess(fetch, pc), with no word (R55). -/
theorem State.fetch_of_outOfBounds {s : State} (h : s.outOfBounds (s.pc.toNat + 1) = true) :
    s.fetch = .error (s.raise .outOfBoundsAccess none (.fetchAt s.pc.toNat)) :=
  if_pos h

/-! ## A step that raises an error -/

/-- The step that raises an error performs no tick (R95). -/
@[simp] theorem State.timerTick_raise (s : State) (k : ErrKind) (w : Option Word) (e : ErrInfo) :
    (s.raise k w e).timerTick = s.raise k w e := by
  simp [State.timerTick, State.ticksInStep]

/-- A running state whose fetch raises an error steps to the state the error leaves (R90, R95). -/
theorem step_of_fetch_raise {s : State} {k : ErrKind} {w : Option Word} {e : ErrInfo} (hr : s.run = .running)
    (h : s.fetch = .error (s.raise k w e)) : step s = .next (s.raise k w e) := by
  simp [step, hr, stepBody, State.fetchDecode, h, finishCycle]

/-- Settles O8: the bounds check of `pc + 1` decides the fetch; under fault it is `4096 ≤ pc + 1`, and under wrap it
never fails and both bytes are read modulo 4096. -/
theorem fetchBoundsCheck : Obligations.FetchBoundsCheck := by
  unfold Obligations.FetchBoundsCheck
  intro s hr
  refine ⟨fun hf hpc => ?_, fun _ hpc => ?_, fun hw => ?_⟩
  · exact step_of_fetch_raise hr (State.fetch_of_outOfBounds (State.outOfBounds_eq_true.2 ⟨hf, hpc⟩))
  · exact State.fetch_of_inBounds (State.outOfBounds_eq_false.2 fun _ => hpc)
  · rw [State.memRead_mod, State.memRead_mod]
    exact State.fetch_of_inBounds (State.outOfBounds_eq_false.2 fun hf => by simp [hw] at hf)

end Sys2Proof.Machine
end

section
/-! PROOFS. The decoder against the opcode map (R76, R78, R82): a decoded instruction is the one its word encodes, its row
selects that word, and the step of a word no row selects. -/

namespace Sys2Proof

/-! ## A word from its group and its fields -/

theorem packNNN_of_op {w : Word} {op : Nibble} (ho : fieldOp w = op) : packNNN op (fieldNNN w) = w :=
  ho ▸ packNNN_fields w

theorem packXNN_of_op {w : Word} {op : Nibble} {nn : Byte} (ho : fieldOp w = op) (hn : fieldNN w = nn) :
    packXNN op (fieldX w) nn = w :=
  ho ▸ hn ▸ packXNN_fields w

theorem packNibbles_of_op {w : Word} {op n : Nibble} (ho : fieldOp w = op) (hn : fieldN w = n) :
    packNibbles op (fieldX w) (fieldY w) n = w :=
  ho ▸ hn ▸ packNibbles_fields w

/-- An ignored nibble the strict check lets through is free, or 0 (R75, R81). -/
theorem ignored_free_or_zero {strict : Bool} {n : Nibble} (h : ¬ (strict && n != 0) = true) :
    (!strict || n == 0) = true := by
  cases strict with
  | false => rfl
  | true => simpa using h

/-! ## The decoder inverted -/

/-- What decoding answers is well-formed, and its word is the word decoded: one case for each group of R82. -/
theorem wellFormed_and_encode_of_decode {strict : Bool} {w : Word} {i : Instr} (h : decode strict w = .ok i) :
    i.wellFormed strict = true ∧ encode i = w := by
  unfold decode at h
  split at h
  -- groups 0x0, and 0x5 and 0x9: an ignored nibble, which STRICT_DECODE checks
  case h_1 ho =>
    split_ifs at h with hs h₁ h₂ <;> cases h
    · exact ⟨ignored_free_or_zero hs, packXNN_of_op ho h₁⟩
    · exact ⟨ignored_free_or_zero hs, packXNN_of_op ho h₂⟩
  case h_6 ho | h_10 ho =>
    split_ifs at h with hs
    cases h
    exact ⟨ignored_free_or_zero hs, packNibbles_of_op ho rfl⟩
  -- groups 0x1, 0x2, 0xA, 0xB: an address
  case h_2 ho | h_3 ho | h_11 ho | h_12 ho => cases h; exact ⟨rfl, packNNN_of_op ho⟩
  -- groups 0x3, 0x4, 0x6, 0x7, 0xC: a register and an immediate
  case h_4 ho | h_5 ho | h_7 ho | h_8 ho | h_13 ho => cases h; exact ⟨rfl, packXNN_of_op ho rfl⟩
  -- groups 0x8 and 0xD: the low nibble selects, or is an operand
  case h_9 ho => split at h <;> cases h <;> exact ⟨rfl, packNibbles_of_op ho (by assumption)⟩
  case h_14 ho => cases h; exact ⟨rfl, packNibbles_of_op ho rfl⟩
  -- groups 0xE and 0xF: the low byte selects
  case h_15 ho | h_16 ho => split_ifs at h <;> cases h <;> exact ⟨rfl, packXNN_of_op ho (by assumption)⟩
  case h_17 => cases h

/-! ## The rows of R76 -/

/-- Every instruction's row is in the map: a row depends on the mnemonic alone. -/
theorem Instr.row_mem_opcodeRows (i : Instr) : i.row ∈ opcodeRows := by
  cases i <;> simp [opcodeRows, Instr.row]

end Sys2Proof

namespace Sys2Proof.Laws

/-- The word of every instruction is one of its row's words (R76). -/
theorem RowBits.all (i : Instr) : RowBits.Statement i := by
  cases i with
  | jp | call | ldI | jpV0 => exact rowBits_NNN _ _
  | seImm | sneImm | ldImm | addImm | rnd => exact rowBits_XNN _ _ _
  | seReg | sneReg | drw => exact rowBits_XYN _ _ _ _
  | ldReg | orReg | andReg | xorReg | addReg | subReg | shr | subnReg | shl => exact rowBits_XY _ _ _ _
  | cls | ret | skp | sknp | ldVxDt | ldVxK | ldDtVx | ldStVx | addI | ldF | ldB | ldMemVx | ldVxMem =>
    exact rowBits_X _ _ _

/-- Under STRICT_DECODE the word of a well-formed instruction is one of its row's words (R75, R76): the four rows whose
strict mask covers their ignored field find it 0, and the others keep their mask. -/
theorem encode_and_strictMask {i : Instr} (h : i.wellFormed true = true) : encode i &&& i.row.strictMask = i.row.bits := by
  cases i with
  | cls ign | ret ign =>
    obtain rfl : ign = 0 := by simpa [Instr.wellFormed] using h
    exact and_FFFF _
  | seReg x y ign | sneReg x y ign =>
    obtain rfl : ign = 0 := by simpa [Instr.wellFormed] using h
    exact rowBits_XY _ _ _ _
  | _ => exact RowBits.all _

/-- A well-formed instruction's row selects its word. -/
theorem selects_row_encode {strict : Bool} {i : Instr} (h : i.wellFormed strict = true) :
    i.row.selects strict (encode i) = true :=
  match strict, h with
  | false, _ => beq_iff_eq.2 (RowBits.all i)
  | true, h => beq_iff_eq.2 (encode_and_strictMask h)

/-- The row of a decoded instruction selects the word it was decoded from. -/
theorem selects_row_of_decode {strict : Bool} {w : Word} {i : Instr} (h : decode strict w = .ok i) :
    i.row.selects strict w = true := by
  obtain ⟨hwf, rfl⟩ := wellFormed_and_encode_of_decode h
  exact selects_row_encode hwf

/-- The decoder refuses a word that no row selects (R78). -/
theorem decode_error_of_no_row {strict : Bool} {w : Word} (h : ∀ r ∈ opcodeRows, r.selects strict w = false) :
    ∃ e, decode strict w = .error e := by
  cases hd : decode strict w with
  | error e => exact ⟨e, rfl⟩
  | ok i => exact absurd (selects_row_of_decode hd) (by simp [h i.row i.row_mem_opcodeRows])

end Sys2Proof.Laws

namespace Sys2Proof.Machine

/-- A running state whose fetched word is refused steps to the state UnsupportedInstruction leaves (R93, R95). -/
theorem step_of_decode_error {s : State} {w : Word} {e : DecodeError} (hr : s.run = .running) (hf : s.fetch = .ok w)
    (hd : decode s.cfg.strictDecode w = .error e) :
    step s = .next (s.raise .unsupportedInstruction (some w) .noInfo) := by
  simp [step, hr, stepBody, State.fetchDecode, hf, State.decodeWord, hd, finishCycle]

/-- Settles O9: the decoder refuses the word, because a decoded instruction's row would select it, and the step ends in
the error. -/
theorem unsupportedWordHalts : Obligations.UnsupportedWordHalts := by
  unfold Obligations.UnsupportedWordHalts
  intro s w hr hf hrows
  obtain ⟨e, hd⟩ := Laws.decode_error_of_no_row hrows
  exact step_of_decode_error hr hf hd

end Sys2Proof.Machine
end

section
/-! PROOFS. The cycle (R90, R91, R95): a step while Halted, the step of a decoded instruction, and the tick that ends it.
No instruction changes the parameters (R9), so the state before the step says whether it ends with a tick. -/

namespace Sys2Proof.Machine

/-! ## A step while Halted -/

theorem step_of_halted {s : State} (h : s.run = .halted) : step s = .next s := by
  simp [step, h]

theorem stepResult_of_halted {s : State} (h : s.run = .halted) : stepResult s = .error s.err := by
  simp [stepResult, h]

/-- The host's step of a halted state drops the byte it supplied: nothing drew it (R91). -/
theorem hostStep_of_halted {s : State} (b : Byte) (h : s.run = .halted) : hostStep s b = s := by
  rw [hostStep, step_of_halted (s := s.supplyRnd b) h]
  rfl

/-- Settles O7: each of the three answers branches on `RUN` first. -/
theorem haltedStepChangesNothing : Obligations.HaltedStepChangesNothing := by
  unfold Obligations.HaltedStepChangesNothing
  intro s b h
  exact ⟨step_of_halted h, hostStep_of_halted b h, stepResult_of_halted h⟩

/-! ## Instructions keep the parameters -/

/-- `loadRegs` changes the registers alone, so it keeps the parameters. -/
@[simp] theorem State.loadRegs_cfg (s : State) (n : Nat) : (s.loadRegs n).cfg = s.cfg := by
  rw [State.loadRegs_eq]

/-- A checked data access raises an error at its first address out of bounds, or is done (R150). -/
theorem checkedAccess_cases {w : Word} {n : Nat} {s done t : State} (h : checkedAccess w n s done = .next t) :
    (∃ a, s.firstOutOfBounds (s.addresses n) = some a ∧
      t = s.raise .outOfBoundsAccess (some w) (.memoryAt a)) ∨
    (s.firstOutOfBounds (s.addresses n) = none ∧ t = done) := by
  unfold checkedAccess at h
  split at h
  case h_1 a ha => cases h; exact .inl ⟨a, ha, rfl⟩
  case h_2 hn => cases h; exact .inr ⟨hn, rfl⟩

/-- A checked key access raises an error for a key number above 15, or is done (R180). -/
theorem checkedKey_cases {w : Word} {x : Nibble} {s done t : State} (h : checkedKey w x s done = .next t) :
    (15 < s.keyNumber x ∧ t = s.raise .outOfBoundsAccess (some w) (.keyAt (s.keyNumber x))) ∨
    (s.keyNumber x ≤ 15 ∧ t = done) := by
  unfold checkedKey at h
  split at h
  case isTrue hk => cases h; exact .inl ⟨hk, rfl⟩
  case isFalse hk => cases h; exact .inr ⟨Nat.le_of_not_lt hk, rfl⟩

theorem checkedAccess_cfg {w : Word} {n : Nat} {s done t : State} (hd : done.cfg = s.cfg)
    (h : checkedAccess w n s done = .next t) : t.cfg = s.cfg := by
  obtain ⟨a, -, rfl⟩ | ⟨-, rfl⟩ := checkedAccess_cases h
  · rfl
  · exact hd

theorem checkedKey_cfg {w : Word} {x : Nibble} {s done t : State} (hd : done.cfg = s.cfg)
    (h : checkedKey w x s done = .next t) : t.cfg = s.cfg := by
  obtain ⟨-, rfl⟩ | ⟨-, rfl⟩ := checkedKey_cases h
  · rfl
  · exact hd

/-- No instruction changes the parameters (R9): those that choose keep them on each of their paths, the checked accesses
by their own lemma, and the others are a chain of updates that all keep them. -/
theorem exec_cfg {i : Instr} {s t : State} (h : exec i s = .next t) : t.cfg = s.cfg := by
  cases i with
  | ret ign =>
    simp only [exec, execRet] at h
    split at h <;> cases h
    case h_1 hp =>
      obtain ⟨-, -, rfl⟩ := State.pop_cases hp
      rfl
    case h_2 => rfl
  | call nnn =>
    simp only [exec, execCall] at h
    split at h <;> cases h
    case h_1 hp =>
      obtain ⟨-, rfl⟩ := State.push_cases hp
      rfl
    case h_2 => rfl
  | drw x y n =>
    simp only [exec, execDrw] at h
    split at h <;> cases h <;> rfl
  | ldVxK x =>
    simp only [exec, execLdVxK] at h
    split at h <;> cases h <;> rfl
  | ldB x | ldMemVx x | ldVxMem x => exact checkedAccess_cfg (by simp) h
  | skp x | sknp x => exact checkedKey_cfg (by simp) h
  | seImm | sneImm | seReg | sneReg => cases h; exact State.skipIf_cfg ..
  | rnd x nn => cases h; exact State.takeRnd_cfg s
  | _ => cases h; rfl

/-! ## The step of a decoded instruction -/

/-- A running state whose fetched word decodes runs the instruction and ends the cycle (R90, R93). -/
theorem step_of_fetchDecode {s : State} {i : Instr} (hr : s.run = .running) (hd : s.fetchDecode = .ok i) :
    step s = finishCycle (exec i s) := by
  simp [step, hr, stepBody, hd]

/-- A step whose instruction leaves a running state answers ok, with a beep only from the step's own tick (R96). -/
theorem stepResult_of_running {s t : State} {i : Instr} (hr : s.run = .running) (hd : s.fetchDecode = .ok i)
    (he : exec i s = .next t) (ht : t.run = .running) : stepResult s = .ok (t.ticksInStep && t.beeps) := by
  simp [stepResult, hr, stepBody, hd, he, outcomeState, ht]

/-- After an instruction that leaves the machine running, TICK_IN_STEP alone decides on the tick (R95). -/
theorem State.ticksInStep_of_running {s : State} (h : s.run = .running) : s.ticksInStep = s.cfg.tickInStep := by
  simp [State.ticksInStep, h]

/-- An instruction that raised an error is followed by no tick (R95). -/
theorem State.timerTick_of_halted {s : State} (h : s.run = .halted) : s.timerTick = s := by
  simp [State.timerTick, State.ticksInStep, h]

/-- Settles O13: the instruction keeps TICK_IN_STEP, so the parameter of the state before the step decides whether the
cycle ends with a tick, and with it whether the answer can be a beep. -/
theorem tickEndsStepWhenCoupled : Obligations.TickEndsStepWhenCoupled := by
  unfold Obligations.TickEndsStepWhenCoupled
  intro s t i hr hd he
  have hstep : step s = .next t.timerTick := by rw [step_of_fetchDecode hr hd, he]; rfl
  have hticks (ht : t.run = .running) : t.ticksInStep = s.cfg.tickInStep := by
    rw [State.ticksInStep_of_running ht, exec_cfg he]
  refine ⟨fun ht hc => ?coupled, fun ht hc => ?uncoupled, fun ht => ?error⟩
  case coupled => simp [hstep, stepResult_of_running hr hd he ht, State.timerTick, hticks ht, hc]
  case uncoupled => simp [hstep, stepResult_of_running hr hd he ht, State.timerTick, hticks ht, hc]
  case error => rw [hstep, State.timerTick_of_halted ht]

end Sys2Proof.Machine
end

section
/-! PROOFS. Control transfer (R110 to R118): the frames of the pc and the call stack, and what each jump, call, return
and register skip leaves. -/

namespace Sys2Proof.Machine

/-! ## Frames -/

/-- A transition that at most sets the call stack, SP and the pc: each of the three is changed or keeps its value. -/
theorem State.frame_of_control {changed : List Elem} {s : State} {stack : Vector Word 16} {sp : Fin 17} {pc : Word}
    (hstack : Elem.stack ∉ changed → stack = s.stack) (hsp : Elem.sp ∉ changed → sp = s.sp)
    (hpc : Elem.pc ∉ changed → pc = s.pc) : s.frame changed { s with stack := stack, sp := sp, pc := pc } := by
  intro e he
  cases e with
  | stack => exact hstack he
  | sp => exact hsp he
  | pc => exact hpc he
  | mem | v | fb => exact fun _ => rfl
  | own => exact ⟨rfl, rfl, rfl⟩
  | _ => rfl

theorem State.frame_setPc (s : State) (w : Word) : s.frame [.pc] (s.setPc w) :=
  State.frame_of_control (fun _ => rfl) (fun _ => rfl) (by simp)

theorem State.frame_skipIf (s : State) (c : Bool) : s.frame [.pc] (s.skipIf c) := by
  cases c with
  | true => exact s.frame_setPc _
  | false => exact s.frame_setPc _

/-- A push and then a jump change the call stack, SP and the pc alone. -/
theorem State.frame_setPc_of_push {s t : State} {w : Word} (h : s.push w = some t) (target : Word) :
    s.frame [.stack, .sp, .pc] (t.setPc target) := by
  obtain ⟨-, rfl⟩ := State.push_cases h
  exact State.frame_of_control (by simp) (by simp) (by simp)

/-- A pop and then a jump change SP and the pc alone: the popped entry keeps its value. -/
theorem State.frame_setPc_of_pop {s t : State} {w : Word} (h : s.pop = some (w, t)) (target : Word) :
    s.frame [.sp, .pc] (t.setPc target) := by
  obtain ⟨-, -, rfl⟩ := State.pop_cases h
  exact State.frame_of_control (fun _ => rfl) (by simp) (by simp)

/-! ## Jumps -/

@[simp] theorem toNat_zextAddr (nnn : Addr) : (zextAddr nnn).toNat = nnn.toNat :=
  BitVec.toNat_setWidth_of_le (by decide)

@[simp] theorem toNat_zextByte (b : Byte) : (zextByte b).toNat = b.toNat :=
  BitVec.toNat_setWidth_of_le (by decide)

/-- The target of JP V0 is the exact sum: it is at most 0xFFF + 0xFF, which no 16-bit addition wraps (R118). -/
theorem toNat_zextAddr_add_zextByte (nnn : Addr) (b : Byte) :
    (zextAddr nnn + zextByte b).toNat = nnn.toNat + b.toNat := by
  have hn := nnn.isLt
  have hb := b.isLt
  rw [BitVec.toNat_add, toNat_zextAddr, toNat_zextByte, Nat.mod_eq_of_lt (by omega)]

/-- Settles O29: both jumps are one `setPc`, to `nnn` and to the exact sum. -/
theorem jumpsSetPc : Obligations.JumpsSetPc := by
  unfold Obligations.JumpsSetPc
  intro nnn s
  exact ⟨⟨_, rfl, toNat_zextAddr nnn, s.frame_setPc _⟩,
    ⟨_, rfl, toNat_zextAddr_add_zextByte nnn (s.reg 0), s.frame_setPc _⟩⟩

/-! ## CALL and RET -/

/-- CALL below SP = 16: the push of its own address, then the jump (R113). -/
theorem exec_call_of_push {s t : State} (nnn : Addr) (h : s.push s.pc = some t) :
    exec (.call nnn) s = .next (t.setPc (zextAddr nnn)) := by
  simp [exec, execCall, h]

/-- CALL with a full stack (R113). -/
theorem exec_call_of_full {s : State} (nnn : Addr) (h : s.sp.val = 16) :
    exec (.call nnn) s = .next (s.raise .callStackOverflow (some (encode (.call nnn))) (.stackPointer 16)) := by
  simp [exec, execCall, State.push_none.2 h, h]

/-- RET above SP = 0: the pop, then the jump two past the popped address (R111). -/
theorem exec_ret_of_pop {s t : State} {w : Word} (ign : Nibble) (h : s.pop = some (w, t)) :
    exec (.ret ign) s = .next (t.setPc (w + 2)) := by
  simp [exec, execRet, h]

/-- RET with an empty stack (R111). -/
theorem exec_ret_of_empty {s : State} (ign : Nibble) (h : s.sp.val = 0) :
    exec (.ret ign) s = .next (s.raise .callStackUnderflow (some (encode (.ret ign))) (.stackPointer 0)) := by
  simp [exec, execRet, State.pop_none.2 h, h]

/-- Every stack entry after a push: the pushed word at the old SP, and the others as before. -/
theorem State.stack_getElem_of_push {s t : State} {w : Word} (h : s.push w = some t) (j : Fin 16) :
    t.stack[j] = if j.val = s.sp.val then w else s.stack[j] := by
  obtain ⟨-, rfl⟩ := State.push_cases h
  simp [Vector.getElem_set, eq_comm]

theorem State.sp_of_push {s t : State} {w : Word} (h : s.push w = some t) : t.sp.val = s.sp.val + 1 := by
  obtain ⟨-, rfl⟩ := State.push_cases h
  rfl

/-- Settles O30: SP alone decides whether the push succeeds. -/
theorem callPushesItsAddress : Obligations.CallPushesItsAddress := by
  unfold Obligations.CallPushesItsAddress
  intro nnn s
  refine ⟨fun hlt => ?_, fun hfull => exec_call_of_full nnn hfull⟩
  obtain ⟨t, hp⟩ := Option.ne_none_iff_exists'.1 (mt (State.push_none (w := s.pc)).1 hlt.ne)
  have hsp := State.sp_of_push hp
  exact ⟨_, exec_call_of_push nnn hp, hsp, toNat_zextAddr nnn,
    fun j => State.stack_getElem_of_push hp j, State.frame_setPc_of_push hp _⟩

/-- What a pop above SP = 0 gives: the entry below SP, and SP one lower (R31). -/
theorem State.pop_of_sp {s t : State} {w : Word} {j : Fin 16} (hj : s.sp.val = j.val + 1) (h : s.pop = some (w, t)) :
    t.sp.val = j.val ∧ w = s.stack[j] := by
  obtain ⟨-, rfl, rfl⟩ := State.pop_cases h
  simp [hj]

/-- Settles O31: SP alone decides whether the pop succeeds, and a pop leaves the entries of the stack as they are. -/
theorem returnGoesTwoPastCallSite : Obligations.ReturnGoesTwoPastCallSite := by
  unfold Obligations.ReturnGoesTwoPastCallSite
  intro ign s
  refine ⟨fun j hj => ?_, fun hempty => exec_ret_of_empty ign hempty⟩
  have hpos : s.sp.val ≠ 0 := by omega
  obtain ⟨⟨w, t⟩, hp⟩ := Option.ne_none_iff_exists'.1 (mt State.pop_none.1 hpos)
  obtain ⟨hsp, rfl⟩ := State.pop_of_sp hj hp
  exact ⟨_, exec_ret_of_pop ign hp, hsp, rfl, State.frame_setPc_of_pop hp _⟩

/-! ## Register skips -/

/-- A skip on a Bool is the skip on the condition that Bool decides (R110). -/
theorem State.skips_skipIf (s : State) {c : Bool} {p : Prop} (h : c = true ↔ p) : s.skips (s.skipIf c) p := by
  refine ⟨fun hp => ?_, fun hp => ?_, s.frame_skipIf c⟩
  · simp [h.2 hp]
  · simp [Bool.eq_false_iff.2 (mt h.1 hp)]

theorem beq_iff_toNat_eq {n : Nat} {a b : BitVec n} : (a == b) = true ↔ a.toNat = b.toNat :=
  beq_iff_eq.trans BitVec.toNat_inj.symm

theorem bne_iff_toNat_ne {n : Nat} {a b : BitVec n} : (a != b) = true ↔ a.toNat ≠ b.toNat :=
  bne_iff_ne.trans BitVec.toNat_inj.not.symm

/-- The low nibble of SE_reg's word is checked under STRICT_DECODE and ignored otherwise (R76, R82). -/
theorem decode_encode_seReg (strict : Bool) (x y ign : Nibble) :
    decode strict (encode (.seReg x y ign)) =
      if strict && ign != 0 then .error (.unsupportedInstruction (encode (.seReg x y ign)))
      else .ok (.seReg x y ign) := by
  simp [decode, encode]

/-- The low nibble of SNE_reg's word is checked under STRICT_DECODE and ignored otherwise (R76, R82). -/
theorem decode_encode_sneReg (strict : Bool) (x y ign : Nibble) :
    decode strict (encode (.sneReg x y ign)) =
      if strict && ign != 0 then .error (.unsupportedInstruction (encode (.sneReg x y ign)))
      else .ok (.sneReg x y ign) := by
  simp [decode, encode]

/-- Settles O32: each skip is `skipIf` on the comparison of two bytes, which is the comparison of their values; and only
the strict decoder checks the low nibble. -/
theorem registerSkips : Obligations.RegisterSkips := by
  unfold Obligations.RegisterSkips
  intro x y ign nn s
  refine ⟨⟨_, rfl, s.skips_skipIf beq_iff_toNat_eq⟩, ⟨_, rfl, s.skips_skipIf bne_iff_toNat_ne⟩,
    ⟨_, rfl, s.skips_skipIf beq_iff_toNat_eq⟩, ⟨_, rfl, s.skips_skipIf bne_iff_toNat_ne⟩, ?_⟩
  intro i hi
  obtain rfl | rfl := List.mem_pair.1 hi
  · exact ⟨decode_encode_seReg false x y ign, fun h => by simp [decode_encode_seReg, h]⟩
  · exact ⟨decode_encode_sneReg false x y ign, fun h => by simp [decode_encode_sneReg, h]⟩

end Sys2Proof.Machine
end

section
/-! PROOFS. Register arithmetic and logic (R130 to R141, R184): what a write of a result, and of a result and then the
flag, leaves in every element, and the values the ALU instructions write. -/

namespace Sys2Proof.Machine

/-! ## Writing a result and a flag -/

@[simp] theorem State.reg_nextInstr (s : State) (x : Nibble) : s.nextInstr.reg x = s.reg x := rfl

/-- A transition that at most sets the registers and the pc. -/
theorem State.frame_of_regs_pc (s : State) (v : Vector Byte 16) (pc : Word) :
    s.frame [.v, .pc] { s with v := v, pc := pc } := by
  intro e he
  cases e with
  | v | pc => simp at he
  | mem | fb => exact fun _ => rfl
  | own => exact ⟨rfl, rfl, rfl⟩
  | _ => rfl

/-- What `aluResult` leaves: the result in register x, and only the pc changed beside it. -/
theorem State.resultOnly_setReg (s : State) (x : Nibble) (r : Byte) : s.resultOnly (s.setReg x r).nextInstr x r :=
  ⟨s.reg_setReg_same x r, fun _ hj => s.reg_setReg_other r (List.mem_singleton.not.1 hj), rfl,
    s.frame_of_regs_pc _ _⟩

/-- What `aluResultFlag` leaves: the flag is written last, so it stands for x = F (R130). -/
theorem State.resultAndFlag_setReg_setFlag (s : State) (x : Nibble) {r f : Byte} {result flag : Nat}
    (hr : r.toNat = result) (hf : f.toNat = flag) :
    s.resultAndFlag ((s.setReg x r).setFlag f).nextInstr x result flag := by
  refine ⟨fun hx => ?_, ?_, fun j hj => ?_, rfl, s.frame_of_regs_pc _ _⟩
  · simp [State.setFlag, State.reg_setReg_other _ f hx, hr]
  · simp [State.setFlag, hf]
  · obtain ⟨hjx, hjf⟩ : j ≠ x ∧ j ≠ 15 := by simpa using hj
    simp [State.setFlag, State.reg_setReg_other _ f hjf, State.reg_setReg_other _ r hjx]

/-! ## The flag computations as numbers -/

theorem toNat_flagByte (c : Bool) : (flagByte c).toNat = c.toNat := by
  cases c <;> rfl

theorem toNat_flagByte_decide (p : Prop) [Decidable p] : (flagByte (decide p)).toNat = if p then 1 else 0 := by
  rw [toNat_flagByte, Bool.toNat, Bool.cond_decide]

/-- A flag that is a bit of a byte, as a digit of the byte's value. -/
theorem toNat_flagByte_getLsbD (a : Byte) (i : Nat) : (flagByte (a.getLsbD i)).toNat = a.toNat / 2 ^ i % 2 := by
  rw [toNat_flagByte, ← BitVec.testBit_toNat, Nat.toNat_testBit]

theorem toNat_carryAdd (a b : Byte) : (carryAdd a b).toNat = if 256 ≤ a.toNat + b.toNat then 1 else 0 :=
  toNat_flagByte_decide _

theorem toNat_borrowSub (a b : Byte) : (borrowSub a b).toNat = if a.toNat < b.toNat then 1 else 0 :=
  toNat_flagByte_decide _

theorem toNat_shiftedOutRight (a : Byte) : (shiftedOutRight a).toNat = a.toNat % 2 := by
  rw [shiftedOutRight, toNat_flagByte_getLsbD, pow_zero, Nat.div_one]

/-- Bit 7 is the last bit of a byte, so no remainder is left to take. -/
theorem toNat_shiftedOutLeft (a : Byte) : (shiftedOutLeft a).toNat = a.toNat / 128 := by
  have ha := a.isLt
  rw [shiftedOutLeft, toNat_flagByte_getLsbD]
  omega

/-! ## The results as numbers -/

theorem toNat_sub_byte (a b : Byte) : (a - b).toNat = (a.toNat + 256 - b.toNat) % 256 := by
  have hb := b.isLt
  rw [BitVec.toNat_sub]
  congr 1
  omega

theorem toNat_shiftRight_one (a : Byte) : (a >>> 1).toNat = a.toNat / 2 := by
  rw [BitVec.toNat_ushiftRight, Nat.shiftRight_eq_div_pow, pow_one]

theorem toNat_shiftLeft_one (a : Byte) : (a <<< 1).toNat = a.toNat * 2 % 256 := by
  rw [BitVec.toNat_shiftLeft, Nat.shiftLeft_eq, pow_one]

/-! ## The instructions -/

/-- Settles O23: the three loads write one result without a flag. -/
theorem loadsSetRegister : Obligations.LoadsSetRegister := by
  unfold Obligations.LoadsSetRegister
  intro x y nn s
  exact ⟨⟨_, rfl, s.resultOnly_setReg x nn⟩, ⟨_, rfl, s.resultOnly_setReg x (s.reg y)⟩,
    ⟨_, rfl, s.resultOnly_setReg x s.dt⟩⟩

/-- Settles O24: the sum of two bytes is the byte of the exact sum modulo 256. -/
theorem addImmediateWrapsWithoutFlag : Obligations.AddImmediateWrapsWithoutFlag := by
  unfold Obligations.AddImmediateWrapsWithoutFlag
  intro x nn s
  have hsum : s.reg x + nn = BitVec.ofNat 8 (((s.reg x).toNat + nn.toNat) % 256) := by
    rw [← BitVec.toNat_add, BitVec.ofNat_toNat, BitVec.setWidth_eq]
  exact ⟨_, rfl, hsum ▸ s.resultOnly_setReg x (s.reg x + nn)⟩

/-- Settles O25: each of the three writes one result without a flag, and its bits are the library's. -/
theorem logicIsBitwise : Obligations.LogicIsBitwise := by
  unfold Obligations.LogicIsBitwise
  intro x y s
  have hframe (r : Byte) := (s.resultOnly_setReg x r).2
  refine ⟨_, _, _, rfl, rfl, rfl, fun j => ?_, fun j => ?_, fun j => ?_, ?_⟩
  · simp
  · simp
  · simp
  · simp only [List.forall_mem_cons]
    exact ⟨hframe _, hframe _, hframe _, by simp⟩

/-- Settles O26: the result is the sum modulo 256, and the flag the carry of the exact sum. -/
theorem addSetsCarry : Obligations.AddSetsCarry := by
  unfold Obligations.AddSetsCarry
  intro x y s
  exact ⟨_, rfl, s.resultAndFlag_setReg_setFlag x (BitVec.toNat_add _ _) (toNat_carryAdd _ _)⟩

/-- Settles O27: SUB and SUBN write the difference and the borrow of the same two operands, in exchanged order. -/
theorem subtractSetsBorrow : Obligations.SubtractSetsBorrow := by
  unfold Obligations.SubtractSetsBorrow
  intro x y s
  exact ⟨⟨_, rfl, s.resultAndFlag_setReg_setFlag x (toNat_sub_byte _ _) (toNat_borrowSub _ _)⟩,
    ⟨_, rfl, s.resultAndFlag_setReg_setFlag x (toNat_sub_byte _ _) (toNat_borrowSub _ _)⟩⟩

/-- Settles O28: the field y is not read, and the bit shifted out is a remainder or a quotient of register x. -/
theorem shiftsSetShiftedOutBit : Obligations.ShiftsSetShiftedOutBit := by
  unfold Obligations.ShiftsSetShiftedOutBit
  intro x ign s
  exact ⟨⟨_, rfl, s.resultAndFlag_setReg_setFlag x (toNat_shiftRight_one _) (toNat_shiftedOutRight _)⟩,
    ⟨_, rfl, s.resultAndFlag_setReg_setFlag x (toNat_shiftLeft_one _) (toNat_shiftedOutLeft _)⟩⟩

end Sys2Proof.Machine
end

section
/-! PROOFS. Index register and memory (R150 to R156): the frames of the index register, of a store and of a load, the
check of the data addresses in order, and what each index and memory instruction leaves. -/

namespace Sys2Proof.Machine

/-! ## Frames -/

/-- A transition that sets the index register and the pc, and sets the registers or keeps them. -/
theorem State.frame_of_index {changed : List Elem} {s : State} {v : Vector Byte 16} (i pc : Word)
    (hi : Elem.i ∈ changed) (hpc : Elem.pc ∈ changed) (hv : Elem.v ∉ changed → v = s.v) :
    s.frame changed { s with v := v, i := i, pc := pc } := by
  intro e he
  cases e with
  | i => exact absurd hi he
  | pc => exact absurd hpc he
  | v => exact State.reg_congr (hv he)
  | mem | fb => exact fun _ => rfl
  | own => exact ⟨rfl, rfl, rfl⟩
  | _ => rfl

/-- A transition that at most sets memory and the pc. -/
theorem State.frame_of_mem_pc (s : State) (mem : Memory) (pc : Word) :
    s.frame [.mem, .pc] { s with mem := mem, pc := pc } := by
  intro e he
  cases e with
  | mem | pc => simp at he
  | v | fb => exact fun _ => rfl
  | own => exact ⟨rfl, rfl, rfl⟩
  | _ => rfl

theorem State.frame_storeBytes (s : State) (a : Nat) (bs : List Byte) :
    s.frame [.mem, .pc] (s.storeBytes a bs).nextInstr := by
  rw [State.storeBytes_eq]
  exact s.frame_of_mem_pc _ _

/-- `loadRegs` changes the registers alone, so it keeps the pc. -/
@[simp] theorem State.loadRegs_pc (s : State) (n : Nat) : (s.loadRegs n).pc = s.pc := by
  rw [State.loadRegs_eq]

theorem State.frame_loadRegs (s : State) (n : Nat) : s.frame [.v, .pc] (s.loadRegs n).nextInstr := by
  rw [State.loadRegs_eq]
  exact s.frame_of_regs_pc _ _

/-! ## What a store leaves in memory -/

@[simp] theorem State.memRead_nextInstr (s : State) (a : Nat) : s.nextInstr.memRead a = s.memRead a := rfl

/-- A store of at most 4096 bytes meets no address twice, so every byte stands at its own address (R53). -/
theorem State.storedAt_storeBytes (s : State) (a : Nat) {bs : List Byte} (hl : bs.length ≤ 4096) :
    s.storedAt (s.storeBytes a bs).nextInstr a bs :=
  ⟨fun j hj => s.memRead_storeBytes_inside a bs hl j hj rfl,
    fun _ hb => s.memRead_storeBytes_outside a bs hb⟩

/-- V[0] to V[x] stored from `I` on: register r stands at `I + r` (R155). -/
theorem State.memRead_of_storedAt_regsUpTo {s t : State} {x r : Nibble}
    (h : s.storedAt t (s.address 0) (s.regsUpTo x)) (hr : r ≤ x) : t.memRead (s.address r.val) = s.reg r := by
  have hlt : r.val < (s.regsUpTo x).length := by
    rw [State.regsUpTo_length]
    exact Nat.lt_succ_of_le hr
  calc t.memRead (s.address r.val)
      = (s.regsUpTo x)[r.val] := h.1 r.val hlt
    _ = s.reg (Fin.ofNat 16 r.val) := s.regsUpTo_getElem x hlt
    _ = s.reg r := by rw [Fin.ofNat_val_eq_self]

/-- V[0] to V[x] stored from `I` on: an address that is none of `I` to `I + x` modulo 4096 reads as before (R155). -/
theorem State.memRead_outside_of_storedAt_regsUpTo {s t : State} {x : Nibble} {b : Nat}
    (h : s.storedAt t (s.address 0) (s.regsUpTo x))
    (hb : ∀ r : Nibble, r ≤ x → b % 4096 ≠ s.address r.val % 4096) : t.memRead b = s.memRead b := by
  refine h.2 b fun j hj => ?_
  have hjx : j ≤ x.val := by
    rw [State.regsUpTo_length] at hj
    exact Nat.le_of_lt_succ hj
  exact hb ⟨j, hjx.trans_lt x.isLt⟩ hjx

/-! ## The check of the data addresses -/

/-- When `I + k`, the last of `I` to `I + k`, is in bounds, the access is done (R150). -/
theorem checkedAccess_of_inBounds {w : Word} {k : Nat} {s done : State}
    (h : s.cfg.memOob = .fault → s.i.toNat + k < 4096) : checkedAccess w (k + 1) s done = .next done := by
  rw [checkedAccess, State.firstOutOfBounds_none h]

/-- Under fault, when `I + k` is not below 4096, the access raises OutOfBoundsAccess(memory) at the first of `I` to
`I + k` that is not: `I` itself, or 4096 (R150). -/
theorem checkedAccess_of_outOfBounds {w : Word} {k : Nat} {s done : State} (hf : s.cfg.memOob = .fault)
    (h : 4096 ≤ s.i.toNat + k) :
    checkedAccess w (k + 1) s done = .next (s.haltedWith
      ⟨.outOfBoundsAccess, s.pc, some w, .memoryAt (if 4096 ≤ s.i.toNat then s.i.toNat else 4096)⟩) := by
  rw [checkedAccess, State.firstOutOfBounds_some hf (Nat.lt_succ_of_le h) k.succ_pos]
  rfl

/-! ## The index register's values as numbers -/

/-- The product is at most 255 × 5, which no 16-bit multiplication wraps (R153). -/
theorem toNat_zextByte_mul_five (b : Byte) : (zextByte b * 5).toNat = b.toNat * 5 := by
  have hb := b.isLt
  have hlt : b.toNat * 5 < 2 ^ 16 := by omega
  rw [BitVec.toNat_mul, toNat_zextByte]
  exact Nat.mod_eq_of_lt hlt

theorem toNat_add_zextByte (w : Word) (b : Byte) : (w + zextByte b).toNat = (w.toNat + b.toNat) % 65536 := by
  rw [BitVec.toNat_add, toNat_zextByte]

theorem toNat_carryIndex (w : Word) (b : Byte) :
    (carryIndex w b).toNat = if 65536 ≤ w.toNat + b.toNat then 1 else 0 :=
  toNat_flagByte_decide _

/-! ## The instructions -/

/-- Settles O36: the check of the three addresses decides; a store of three bytes follows it. -/
theorem bcdStoresDigits : Obligations.BcdStoresDigits := by
  unfold Obligations.BcdStoresDigits
  intro x s
  refine ⟨fun h => ?inBounds, fun hf h => ?outOfBounds⟩
  case inBounds =>
    exact ⟨_, checkedAccess_of_inBounds h, by simp, s.frame_storeBytes _ _,
      s.storedAt_storeBytes _ (bs := bcdDigits (s.reg x)) (by simp [bcdDigits])⟩
  case outOfBounds => exact checkedAccess_of_outOfBounds hf h

/-- Settles O37: the check of the addresses decides; a store of V[0] to V[x] follows it. -/
theorem dumpStoresRegisters : Obligations.DumpStoresRegisters := by
  unfold Obligations.DumpStoresRegisters
  intro x s
  refine ⟨fun h => ?inBounds, fun hf h => ?outOfBounds⟩
  case inBounds =>
    have hlen : (s.regsUpTo x).length ≤ 4096 := by
      rw [State.regsUpTo_length]
      omega
    have hstored := s.storedAt_storeBytes (s.address 0) hlen
    exact ⟨_, checkedAccess_of_inBounds h, by simp, s.frame_storeBytes _ _,
      fun _ hr => State.memRead_of_storedAt_regsUpTo hstored hr,
      fun _ hb => State.memRead_outside_of_storedAt_regsUpTo hstored hb⟩
  case outOfBounds => exact checkedAccess_of_outOfBounds hf h

/-- Settles O38: the check of the addresses decides; the load of the x + 1 registers below x + 1 follows it. -/
theorem loadReadsRegisters : Obligations.LoadReadsRegisters := by
  unfold Obligations.LoadReadsRegisters
  intro x s
  refine ⟨fun h => ?inBounds, fun hf h => ?outOfBounds⟩
  case inBounds =>
    refine ⟨_, checkedAccess_of_inBounds h, by simp, s.frame_loadRegs _, fun r => ?_⟩
    rw [State.reg_nextInstr, State.reg_loadRegs s (by omega) r]
    simp only [Nat.lt_succ_iff, Fin.le_def]
  case outOfBounds => exact checkedAccess_of_outOfBounds hf h

/-- Settles O34: each load is one `setIndex`, of a value that fits the index register. -/
theorem indexLoads : Obligations.IndexLoads := by
  unfold Obligations.IndexLoads
  intro x nnn s
  have hframe (w : Word) : s.frame [.i, .pc] (s.setIndex w).nextInstr :=
    State.frame_of_index _ _ (by simp) (by simp) fun _ => rfl
  exact ⟨⟨_, rfl, toNat_zextAddr nnn, rfl, hframe _⟩, ⟨_, rfl, toNat_zextByte_mul_five (s.reg x), rfl, hframe _⟩⟩

/-- Settles O35: the sum is taken of the registers before the instruction, and the flag is the only register written. -/
theorem addToIndexSetsOverflow : Obligations.AddToIndexSetsOverflow := by
  unfold Obligations.AddToIndexSetsOverflow
  intro x s
  refine ⟨_, rfl, toNat_add_zextByte s.i (s.reg x), ?flag, ?others, rfl, ?frame⟩
  case flag => rw [State.reg_nextInstr, State.setFlag, State.reg_setReg_same, toNat_carryIndex]
  case others => exact fun _ hr => State.reg_setReg_other _ _ (List.mem_singleton.not.1 hr)
  case frame => exact State.frame_of_index _ _ (by simp) (by simp) (by simp)

end Sys2Proof.Machine
end

section
/-! PROOFS. Display (R170 to R172): the frame of a change of the framebuffer, what a draw does to the covered cells, the
first failing check of a draw, and what CLS and DRW leave. -/

namespace Sys2Proof.Machine

/-! ## Frames -/

/-- A transition that sets the framebuffer and the pc, and sets the registers or keeps them. -/
theorem State.frame_of_display {changed : List Elem} {s : State} {v : Vector Byte 16} (f : Framebuffer) (pc : Word)
    (hfb : Elem.fb ∈ changed) (hpc : Elem.pc ∈ changed) (hv : Elem.v ∉ changed → v = s.v) :
    s.frame changed { s with v := v, fb := f, pc := pc } := by
  intro e he
  cases e with
  | fb => exact absurd hfb he
  | pc => exact absurd hpc he
  | v => exact State.reg_congr (hv he)
  | mem => exact fun _ => rfl
  | own => exact ⟨rfl, rfl, rfl⟩
  | _ => rfl

/-! ## A draw whose checks all pass -/

/-- A cell is covered iff one of the sprite's pixels falls on it. -/
theorem State.covers_iff_pixel {s : State} {cx cy n k : Nat} :
    s.covers cx cy n k ↔
      ∃ p ∈ (List.range n).flatMap (s.rowPixels cx cy), placePixel s.cfg.fbEdge p.1 p.2 = .cell k := by
  simp only [State.covers, List.mem_flatMap, List.mem_range, State.mem_rowPixels]
  constructor
  · rintro ⟨r, hr, c, hc, hb, hk⟩
    exact ⟨_, ⟨r, hr, c, hc, hb, rfl⟩, hk⟩
  · rintro ⟨_, ⟨r, hr, c, hc, hb, rfl⟩, hk⟩
    exact ⟨r, hr, c, hc, hb, hk⟩

/-- No pixel of a drawable sprite is an out-of-bounds access. -/
theorem State.drawable.pixel_inside {s : State} {cx cy n : Nat} (h : s.drawable cx cy n) :
    ∀ p ∈ (List.range n).flatMap (s.rowPixels cx cy), placePixel s.cfg.fbEdge p.1 p.2 ≠ .outside := by
  intro p hp
  obtain ⟨r, hr, hp⟩ := List.mem_flatMap.1 hp
  obtain ⟨c, hc, hb, rfl⟩ := State.mem_rowPixels.1 hp
  exact (h r (List.mem_range.1 hr)).2 c hc hb

/-- A drawable sprite of at most 32 rows is drawn: the covered cells are flipped, the others stay, and there is a
collision iff a covered cell was set (R171). -/
theorem State.drawRows_of_drawable {s : State} {cx cy n : Nat} (hn : n ≤ 32) (h : s.drawable cx cy n) :
    ∃ f collided, s.drawRows cx cy (List.range n) (s.fb, false) = .ok (f, collided) ∧
      (∀ k, s.covers cx cy n k → f.cell k = s.fb.cell k ^^^ 1) ∧
      (∀ k, ¬ s.covers cx cy n k → f.cell k = s.fb.cell k) ∧
      (collided = true ↔ ∃ k, s.covers cx cy n k ∧ s.fb.cell k = 1) := by
  obtain ⟨⟨f, collided⟩, hplot, hflip, hkeep, hcol⟩ :=
    plotAll_ok (s.fb, false) h.pixel_inside (s.rowPixels_disjoint cx cy n hn)
  have hrows : ∀ r ∈ List.range n, s.outOfBounds (s.i.toNat + r) = false := fun r hr => (h r (List.mem_range.1 hr)).1
  simp only [← State.covers_iff_pixel, Bool.false_eq_true, false_or] at hflip hkeep hcol
  exact ⟨f, collided, (s.drawRows_eq_plotAll cx cy _ _ hrows).trans hplot, hflip, hkeep, hcol⟩

/-! ## A draw with a failing check -/

/-- A sprite that is not drawable raises the info of the first failing check: the rows above pass all of theirs, and in
its row the memory check comes first and then the bits from column 0 on (R171, R203). -/
theorem State.drawRows_of_not_drawable {s : State} {cx cy n : Nat} (acc : Framebuffer × Bool)
    (h : ¬ s.drawable cx cy n) :
    ∃ info, s.drawRows cx cy (List.range n) acc = .error info ∧ ∃ r < n, s.drawable cx cy r ∧
      ((s.outOfBounds (s.i.toNat + r) = true ∧ info = .memoryAt (s.i.toNat + r)) ∨
       (s.outOfBounds (s.i.toNat + r) = false ∧ ∃ c < 8, s.spriteBit r c = true ∧
         placePixel s.cfg.fbEdge (cx + c) (cy + r) = .outside ∧ info = .framebufferAt (cx + c) (cy + r) ∧
         ∀ c' < c, s.spriteBit r c' = true → placePixel s.cfg.fbEdge (cx + c') (cy + r) ≠ .outside)) := by
  obtain ⟨-, hall⟩ | ⟨pre, r, post, info, hrange, herr, hpre, hfail⟩ := s.drawRows_cases cx cy (List.range n) acc
  · exact absurd (fun r hr => hall r (List.mem_range.2 hr)) h
  · obtain ⟨hr, hbefore⟩ := range_eq_append hrange
    exact ⟨info, herr, r, hr, fun r' hr' => hpre r' (hbefore r' hr'), hfail⟩

/-! ## The instructions -/

theorem exec_drw_of_ok {x y n : Nibble} {s : State} {f : Framebuffer} {collided : Bool}
    (h : s.drawRows (s.reg x).toNat (s.reg y).toNat (List.range n.val) (s.fb, false) = .ok (f, collided)) :
    exec (.drw x y n) s = .next ((s.setFb f).setFlag (collisionFlag collided)).nextInstr := by
  simp [exec, execDrw, h]

theorem exec_drw_of_error {x y n : Nibble} {s : State} {info : ErrInfo}
    (h : s.drawRows (s.reg x).toNat (s.reg y).toNat (List.range n.val) (s.fb, false) = .error info) :
    exec (.drw x y n) s = .next (s.raise .outOfBoundsAccess (some (encode (.drw x y n))) info) := by
  simp [exec, execDrw, h]

/-- Settles O41: CLS sets the empty framebuffer, which reads 0 at every cell. -/
theorem clsClearsFramebuffer : Obligations.ClsClearsFramebuffer := by
  unfold Obligations.ClsClearsFramebuffer
  intro ign s
  exact ⟨_, rfl, Framebuffer.cell_nil, rfl, State.frame_of_display _ _ (by simp) (by simp) fun _ => rfl⟩

/-- Settles O42: the checks decide; a sprite has at most 15 rows, so no two of its pixels meet, and a failing check is
found before anything is kept. -/
theorem drawXorsSpriteOrReportsFirstFailingCheck : Obligations.DrawXorsSpriteOrReportsFirstFailingCheck := by
  unfold Obligations.DrawXorsSpriteOrReportsFirstFailingCheck
  intro x y n s
  refine ⟨fun h => ?drawn, fun h => ?failed⟩
  case drawn =>
    obtain ⟨f, collided, hdraw, hflip, hkeep, hcol⟩ := State.drawRows_of_drawable (by omega) h
    have hvf : ((s.setFb f).setFlag (collisionFlag collided)).nextInstr.reg 15 = collisionFlag collided := by
      rw [State.reg_nextInstr, State.setFlag, State.reg_setReg_same]
    refine ⟨_, exec_drw_of_ok hdraw, hflip, hkeep, fun hset => ?collision, fun hclear => ?noCollision, ?others, rfl,
      State.frame_of_display _ _ (by simp) (by simp) (by simp)⟩
    case collision => rw [hvf, hcol.2 hset]; rfl
    case noCollision =>
      have hnone : collided = false := Bool.eq_false_iff.2 fun hc =>
        let ⟨k, hk, hone⟩ := hcol.1 hc
        hclear k hk hone
      rw [hvf, hnone]; rfl
    case others => exact fun _ hr => State.reg_setReg_other _ _ (List.mem_singleton.not.1 hr)
  case failed =>
    obtain ⟨info, herr, hfirst⟩ := State.drawRows_of_not_drawable (s.fb, false) h
    exact ⟨info, exec_drw_of_error herr, hfirst⟩

end Sys2Proof.Machine
end

section
/-! PROOFS. Random, keys and timers (R180 to R187): the frames of a draw of the random byte and of a timer load, the check
of the key number, and what each of these instructions leaves. -/

namespace Sys2Proof.Machine

/-! ## Frames -/

/-- A transition that at most sets the two timers and the pc. -/
theorem State.frame_of_timers {changed : List Elem} {s : State} {dt st : Byte} {pc : Word}
    (hdt : Elem.dt ∉ changed → dt = s.dt) (hst : Elem.st ∉ changed → st = s.st) (hpc : Elem.pc ∉ changed → pc = s.pc) :
    s.frame changed { s with dt := dt, st := st, pc := pc } := by
  intro e he
  cases e with
  | dt => exact hdt he
  | st => exact hst he
  | pc => exact hpc he
  | mem | v | fb => exact fun _ => rfl
  | own => exact ⟨rfl, rfl, rfl⟩
  | _ => rfl

/-- A transition that at most sets the registers, the pc and the model's queue of random bytes. -/
theorem State.frame_of_draw (s : State) (v : Vector Byte 16) (pc : Word) (queue : List Byte) :
    s.frame [.v, .pc, .own] { s with v := v, pc := pc, rndIn := queue } := by
  intro e he
  cases e with
  | v | pc | own => simp at he
  | mem | fb => exact fun _ => rfl
  | _ => rfl

/-! ## The check of the key number -/

/-- A key number up to 15 passes the check (R180). -/
theorem checkedKey_of_le {w : Word} {x : Nibble} {s done : State} (h : s.keyNumber x ≤ 15) :
    checkedKey w x s done = .next done :=
  if_neg (Nat.not_lt.2 h)

/-- A key number above 15 raises OutOfBoundsAccess(keys) (R180). -/
theorem checkedKey_of_gt {w : Word} {x : Nibble} {s done : State} (h : 15 < s.keyNumber x) :
    checkedKey w x s done = .next (s.haltedWith ⟨.outOfBoundsAccess, s.pc, some w, .keyAt (s.keyNumber x)⟩) :=
  if_pos h

/-! ## LD Vx, K -/

/-- LD Vx, K with a least pressed key takes its number (R185). -/
theorem exec_ldVxK_of_some {x : Nibble} {s : State} {k : Nat} (h : s.firstKey = some k) :
    exec (.ldVxK x) s = .next (s.setReg x (BitVec.ofNat 8 k)).nextInstr := by
  simp [exec, execLdVxK, h]

/-- LD Vx, K with no key pressed waits in place (R185). -/
theorem exec_ldVxK_of_none {x : Nibble} {s : State} (h : s.firstKey = none) : exec (.ldVxK x) s = .next s := by
  simp [exec, execLdVxK, h]

/-! ## The instructions -/

/-- Settles O44: the byte drawn is the supplied one, and the draw empties the model's queue. -/
theorem randomAndMasksRandomByte : Obligations.RandomAndMasksRandomByte := by
  unfold Obligations.RandomAndMasksRandomByte
  intro x nn b s
  refine ⟨_, rfl, ?result, ?others, rfl, s.frame_of_draw _ _ _, rfl⟩
  case result => exact State.reg_setReg_same _ x (b &&& nn)
  case others => exact fun _ hr => State.reg_setReg_other _ _ (List.mem_singleton.not.1 hr)

/-- Settles O47: the key number decides; up to 15 it names a key, and each skip is `skipIf` on that key. -/
theorem keySkips : Obligations.KeySkips := by
  unfold Obligations.KeySkips
  intro x s
  refine ⟨fun k hk => ?key, fun h i hi => ?noKey⟩
  case key =>
    have hle : s.keyNumber x ≤ 15 := by
      rw [State.keyNumber, hk]
      omega
    have hkey : s.keyPressed (s.keyNumber x) = s.key[k] := by
      rw [State.keyNumber, hk, State.keyPressed_fin]
    exact ⟨⟨_, checkedKey_of_le hle, s.skips_skipIf (by rw [hkey])⟩,
      ⟨_, checkedKey_of_le hle, s.skips_skipIf (by rw [hkey, Bool.not_eq_true'])⟩⟩
  case noKey =>
    obtain rfl | rfl := List.mem_pair.1 hi
    · exact checkedKey_of_gt h
    · exact checkedKey_of_gt h

/-- Settles O48: the least pressed key, or none, is what `firstKey` finds. -/
theorem waitForKeyTakesLeastKey : Obligations.WaitForKeyTakesLeastKey := by
  unfold Obligations.WaitForKeyTakesLeastKey
  intro x s
  refine ⟨fun k hk hleast => ?pressed, fun hnone => ?waiting⟩
  case pressed => exact ⟨_, exec_ldVxK_of_some (State.firstKey_some hk hleast), s.resultOnly_setReg x _⟩
  case waiting => exact exec_ldVxK_of_none (State.firstKey_none hnone)

/-- Settles O49: each load sets its own timer and keeps the other. -/
theorem timerLoads : Obligations.TimerLoads := by
  unfold Obligations.TimerLoads
  intro x s
  exact ⟨⟨_, rfl, rfl, rfl, State.frame_of_timers (by simp) (fun _ => rfl) (by simp)⟩,
    ⟨_, rfl, rfl, rfl, State.frame_of_timers (fun _ => rfl) (by simp) (by simp)⟩⟩

end Sys2Proof.Machine
end

section
/-! PROOFS. Errors (R200 to R206): what an instruction that raises one leaves, what a step that halts leaves and answers,
and which host operation leaves Halted. -/

namespace Sys2Proof.Machine

/-! ## An instruction that raises an error -/

/-- `t` is what an error of the instruction `i` leaves of `s`: the error is one of the table of R202, and the record
holds the instruction's word and address. -/
def State.raisedBy (s : State) (i : Instr) (t : State) : Prop :=
  ∃ k info, t = s.raise k (some (encode i)) info ∧ i.mayRaise s.cfg ⟨k, s.pc, some (encode i), info⟩

/-- A checked data access is done or raises an error at an address that is out of bounds (R150). -/
theorem checkedAccess_run_or_raise {w : Word} {n : Nat} {s done t : State} (h : checkedAccess w n s done = .next t)
    (hd : done.run = s.run) :
    t.run = s.run ∨ ∃ a, t = s.raise .outOfBoundsAccess (some w) (.memoryAt a) ∧ s.cfg.memOob = .fault ∧ 4096 ≤ a := by
  obtain ⟨a, ha, rfl⟩ | ⟨-, rfl⟩ := checkedAccess_cases h
  · exact .inr ⟨a, rfl, State.outOfBounds_eq_true.1 (List.find?_some ha)⟩
  · exact .inl hd

/-- A checked key access is done or raises an error for a key number above 15 (R180). -/
theorem checkedKey_run_or_raise {w : Word} {x : Nibble} {s done t : State} (h : checkedKey w x s done = .next t)
    (hd : done.run = s.run) :
    t.run = s.run ∨ ∃ k, t = s.raise .outOfBoundsAccess (some w) (.keyAt k) ∧ 15 < k := by
  obtain ⟨hk, rfl⟩ | ⟨-, rfl⟩ := checkedKey_cases h
  · exact .inr ⟨_, rfl, hk⟩
  · exact .inl hd

/-- A draw is drawn or raises an error at its first failing check (R171, R172). -/
theorem exec_drw_run_or_raise {x y n : Nibble} {s t : State} (h : exec (.drw x y n) s = .next t) :
    t.run = s.run ∨ s.raisedBy (.drw x y n) t := by
  by_cases hd : s.drawable (s.reg x).toNat (s.reg y).toNat n.val
  case pos =>
    obtain ⟨f, collided, hdraw, -⟩ := State.drawRows_of_drawable (by omega) hd
    rw [exec_drw_of_ok hdraw] at h
    cases h
    exact .inl rfl
  case neg =>
    obtain ⟨info, herr, r, -, -, hfail⟩ := State.drawRows_of_not_drawable (s.fb, false) hd
    rw [exec_drw_of_error herr] at h
    cases h
    refine .inr ⟨_, info, rfl, rfl, ?_⟩
    obtain ⟨ho, hi⟩ | ⟨-, c, -, -, hp, hi, -⟩ := hfail
    · obtain ⟨hf, ha⟩ := State.outOfBounds_eq_true.1 ho
      exact .inl ⟨hf, _, hi, ha⟩
    · obtain ⟨hf, hxy⟩ := placePixel_outside.1 hp
      exact .inr ⟨hf, _, _, hi, hxy⟩

/-- `loadRegs` changes the registers alone, so it keeps `RUN`. -/
@[simp] theorem State.loadRegs_run (s : State) (n : Nat) : (s.loadRegs n).run = s.run := by
  rw [State.loadRegs_eq]

/-- An instruction keeps `RUN` or raises an error that the table of R202 gives it: RET, CALL, DRW and the checked
accesses choose, and the others are a chain of updates that all keep `RUN`. -/
theorem exec_run_or_raise {i : Instr} {s t : State} (h : exec i s = .next t) : t.run = s.run ∨ s.raisedBy i t := by
  cases i with
  | ret ign =>
    by_cases hsp : s.sp.val = 0
    case pos =>
      rw [exec_ret_of_empty ign hsp] at h
      cases h
      exact .inr ⟨_, _, rfl, rfl, rfl⟩
    case neg =>
      obtain ⟨⟨w, u⟩, hp⟩ := Option.ne_none_iff_exists'.1 (mt State.pop_none.1 hsp)
      rw [exec_ret_of_pop ign hp] at h
      cases h
      obtain ⟨-, -, rfl⟩ := State.pop_cases hp
      exact .inl rfl
  | call nnn =>
    by_cases hsp : s.sp.val = 16
    case pos =>
      rw [exec_call_of_full nnn hsp] at h
      cases h
      exact .inr ⟨_, _, rfl, rfl, rfl⟩
    case neg =>
      obtain ⟨u, hp⟩ := Option.ne_none_iff_exists'.1 (mt (State.push_none (w := s.pc)).1 hsp)
      rw [exec_call_of_push nnn hp] at h
      cases h
      obtain ⟨-, rfl⟩ := State.push_cases hp
      exact .inl rfl
  | drw x y n => exact exec_drw_run_or_raise h
  | ldB x | ldMemVx x | ldVxMem x =>
    exact (checkedAccess_run_or_raise h (by simp)).imp_right fun ⟨a, ht, hf, ha⟩ => ⟨_, _, ht, rfl, hf, a, rfl, ha⟩
  | skp x | sknp x =>
    exact (checkedKey_run_or_raise h (by simp)).imp_right fun ⟨k, ht, hk⟩ => ⟨_, _, ht, rfl, k, rfl, hk⟩
  | ldVxK x =>
    cases hk : s.firstKey with
    | some k => rw [exec_ldVxK_of_some hk] at h; cases h; exact .inl rfl
    | none => rw [exec_ldVxK_of_none hk] at h; cases h; exact .inl rfl
  | seImm | sneImm | seReg | sneReg => cases h; exact .inl (State.skipIf_run ..)
  | rnd x nn => cases h; exact .inl (State.takeRnd_run s)
  | _ => cases h; exact .inl rfl

/-- The errors of the table of R202 record what R201 says their kind records. -/
theorem infoFits_of_mayRaise {cfg : Config} {i : Instr} {e : ErrRecord} (h : i.mayRaise cfg e) : e.infoFits := by
  unfold ErrRecord.infoFits
  cases i with
  | ret | call =>
    obtain ⟨hk, hi⟩ := h
    rw [hk]
    exact hi
  | drw =>
    obtain ⟨hk, ⟨-, a, hi, -⟩ | ⟨-, px, py, hi, -⟩⟩ := h
    · rw [hk]
      exact .inr (.inl ⟨a, hi⟩)
    · rw [hk]
      exact .inr (.inr (.inl ⟨px, py, hi⟩))
  | ldB | ldMemVx | ldVxMem =>
    obtain ⟨hk, -, a, hi, -⟩ := h
    rw [hk]
    exact .inr (.inl ⟨a, hi⟩)
  | skp | sknp =>
    obtain ⟨hk, k, hi, -⟩ := h
    rw [hk]
    exact .inr (.inr (.inr ⟨k, hi⟩))
  | _ => exact h.elim

/-! ## A step that halts -/

@[simp] theorem State.timerTick_run (s : State) : s.timerTick.run = s.run := by
  unfold State.timerTick
  split <;> rfl

/-- A step that halts adds no tick to what fetching and executing leave (R95). -/
theorem stepBody_of_step_halts {s t : State} (hr : s.run = .running) (h : step s = .next t) (ht : t.run = .halted) :
    stepBody s = .next t := by
  simp only [step, hr] at h
  cases hb : stepBody s with
  | next u =>
    rw [hb] at h
    cases h
    rw [State.timerTick_run] at ht
    rw [State.timerTick_of_halted ht]
  | fault r => rw [hb] at h; cases h
  | refused r => rw [hb] at h; cases h

/-- A step that halts answers with the latched error (R96). -/
theorem stepResult_of_stepBody_halts {s t : State} (hr : s.run = .running) (h : stepBody s = .next t)
    (ht : t.run = .halted) : stepResult s = .error t.err := by
  simp [stepResult, hr, h, outcomeState, ht]

/-- Fetching and executing end in the error of the fetch, in the error of the decoder, or in what the decoded
instruction leaves (R90, R92, R93). -/
theorem stepBody_cases {s t : State} (h : stepBody s = .next t) :
    (s.fetch = .error t ∧ t = s.raise .outOfBoundsAccess none (.fetchAt s.pc.toNat)) ∨
    (∃ w, s.fetch = .ok w ∧ t = s.raise .unsupportedInstruction (some w) .noInfo) ∨
    (∃ i, s.fetch = .ok (encode i) ∧ exec i s = .next t) := by
  cases hb : s.outOfBounds (s.pc.toNat + 1) with
  | true =>
    have hf := State.fetch_of_outOfBounds hb
    simp only [stepBody, State.fetchDecode, hf] at h
    cases h
    exact .inl ⟨hf, rfl⟩
  | false =>
    have hf := State.fetch_of_inBounds hb
    cases hd : decode s.cfg.strictDecode (wordOfBytes (s.memRead s.pc.toNat) (s.memRead (s.pc.toNat + 1))) with
    | error e =>
      simp only [stepBody, State.fetchDecode, hf, State.decodeWord, hd] at h
      cases h
      exact .inr (.inl ⟨_, hf, rfl⟩)
    | ok i =>
      simp only [stepBody, State.fetchDecode, hf, State.decodeWord, hd] at h
      rw [← (wellFormed_and_encode_of_decode hd).2] at hf
      exact .inr (.inr ⟨i, hf, h⟩)

/-- Settles O10: the error comes from the fetch, from the decoder or from the instruction, and each of them raises it on
the state before the step. -/
theorem errorsArePrecise : Obligations.ErrorsArePrecise := by
  unfold Obligations.ErrorsArePrecise
  intro s t hr hstep ht
  have hbody := stepBody_of_step_halts hr hstep ht
  refine ⟨stepResult_of_stepBody_halts hr hbody ht, ?_⟩
  obtain ⟨hf, rfl⟩ | ⟨w, hf, rfl⟩ | ⟨i, hf, he⟩ := stepBody_cases hbody
  · exact ⟨_, rfl, rfl, .inl rfl, by simp [hf], fun _ _ => rfl⟩
  · exact ⟨_, rfl, rfl, rfl, by simp [hf], by simp [hf]⟩
  · obtain hrun | ⟨k, info, rfl, hmay⟩ := exec_run_or_raise he
    · rw [hrun, hr] at ht
      cases ht
    · exact ⟨_, rfl, rfl, infoFits_of_mayRaise hmay, by simp [hf], by simp [hf]⟩

/-! ## Leaving Halted -/

theorem State.tick_of_halted {s : State} (h : s.run = .halted) : s.tick = s := by
  simp [State.tick, h]

/-- Every host operation but a reset with an image leaves a halted state halted (R91, R206, R213, R232). -/
theorem State.apply_run_of_halted {s : State} {op : HostOp} (h : s.run = .halted)
    (hop : ∀ image, op ≠ .reset (some image)) : (s.apply op).run = .halted := by
  cases op with
  | reset image =>
    cases image with
    | none => rfl
    | some image => exact absurd rfl (hop image)
  | step b => exact (congrArg State.run (hostStep_of_halted b h)).trans h
  | tick => exact (congrArg State.run (State.tick_of_halted h)).trans h
  | setKeys k => exact h

/-- Settles O22: the other operations keep Halted, and an accepted reset stores the image in the cleared state, which
runs and holds no error. -/
theorem onlyResetLeavesHalted : Obligations.OnlyResetLeavesHalted := by
  unfold Obligations.OnlyResetLeavesHalted
  refine ⟨fun s op hs hrun => ?leaves, fun s image hl => ?reset⟩
  case leaves =>
    by_contra hop
    have hhalted := State.apply_run_of_halted hs (not_exists.1 hop)
    rw [hrun] at hhalted
    cases hhalted
  case reset =>
    have hstored : s.apply (.reset (some image)) = s.clear.storeBytes 0x200 image := s.resetWith_of_length_le hl
    exact ⟨by simp [hstored], by simp [hstored], hstored⟩

end Sys2Proof.Machine
end

section
/-! PROOFS. The timer tick (R210 to R213): one tick, and any number of ticks. -/

namespace Sys2Proof.Machine

/-! ## One tick -/

theorem State.tick_of_running {s : State} (h : s.run = .running) : s.tick = s.tickBody := by
  simp [State.tick, h]

theorem State.tickResult_of_halted {s : State} (h : s.run = .halted) : s.tickResult = false := by
  simp [State.tickResult, h]

/-- A tick of a running state emits the beep exactly when ST was 1 (R210). -/
theorem State.tickResult_of_running {s : State} (h : s.run = .running) :
    s.tickResult = true ↔ s.st.toNat = 1 := by
  rw [State.tickResult, h]
  exact beq_iff_toNat_eq

/-- Settles O50: a running state ticks by `tickBody`, which counts both timers down and sets nothing else. -/
theorem tickCountsDown : Obligations.TickCountsDown := by
  unfold Obligations.TickCountsDown
  refine fun s => ⟨fun h => ?running, fun h => ⟨State.tick_of_halted h, State.tickResult_of_halted h⟩⟩
  case running =>
    rw [State.tick_of_running h]
    exact ⟨countDown_toNat s.dt, countDown_toNat s.st, State.frame_of_timers (by simp) (by simp) fun _ => rfl,
      State.tickResult_of_running h⟩

/-! ## Any number of ticks -/

/-- Ticks of a running state keep it running and count ST down to 0 (R211, R212). -/
theorem State.run_st_iterate_tick {s : State} (h : s.run = .running) (j : Nat) :
    (State.tick^[j] s).run = .running ∧ (State.tick^[j] s).st.toNat = s.st.toNat - j := by
  induction j with
  | zero => exact ⟨h, rfl⟩
  | succ j ih =>
    obtain ⟨hrun, hst⟩ := ih
    rw [Function.iterate_succ_apply', State.tick_of_running hrun]
    exact ⟨hrun, by rw [State.tickBody_st, countDown_toNat, hst, Nat.sub_sub]⟩

/-- Settles O51: after j ticks ST is its first value less j, and the next tick beeps exactly when that is 1. -/
theorem oneBeepOnLastTick : Obligations.OneBeepOnLastTick := by
  unfold Obligations.OneBeepOnLastTick
  intro s j h
  obtain ⟨hrun, hst⟩ := State.run_st_iterate_tick h j
  refine ⟨?_, hst⟩
  rw [State.tickResult_of_running hrun, hst]
  omega

end Sys2Proof.Machine
end

section
/-! PROOFS. A refused reset (R232, R233): the state it leaves and its answer. -/

namespace Sys2Proof.Machine

/-- A missing image, which counts as length 0, and one over 3584 bytes load nothing (R232). -/
theorem State.resetWith_of_refused (s : State) {image : Option (List Byte)}
    (h : ∀ l, image = some l → 3584 < l.length) :
    s.resetWith image = s.refuseLoad ((image.map List.length).getD 0) := by
  cases image with
  | none => rfl
  | some l => exact if_pos (h l rfl)

/-- The load of a missing image and of one over 3584 bytes is answered with ProgramLoadError (R232). -/
theorem resetResult_of_refused {image : Option (List Byte)} (h : ∀ l, image = some l → 3584 < l.length) :
    resetResult image = .programLoadError := by
  cases image with
  | none => rfl
  | some l => exact if_pos (h l rfl)

/-- The reset with an empty image stores nothing: it is the cleared state (R234). -/
theorem State.resetWith_nil (s : State) : s.resetWith (some []) = s.clear := rfl

@[simp] theorem State.refuseLoad_run (s : State) (n : Nat) : (s.refuseLoad n).run = .halted := rfl

/-- A refused load halts the cleared state, whose pc is the address 0x200 of the record (R233). -/
theorem State.refuseLoad_eq_haltedWith (s : State) (n : Nat) :
    s.refuseLoad n = s.clear.haltedWith ⟨.programLoadError, 0x200, none, .imageLength n⟩ := rfl

/-- Settles O53: the refused load halts the cleared state, and a halted state answers each step with its error and
ignores each tick. -/
theorem refusedLoadHalts : Obligations.RefusedLoadHalts := by
  unfold Obligations.RefusedLoadHalts
  intro s image b h t
  have ht : t = s.refuseLoad ((image.map List.length).getD 0) := s.resetWith_of_refused h
  have hrun : t.run = .halted := ht ▸ s.refuseLoad_run _
  refine ⟨?state, resetResult_of_refused h, step_of_halted hrun, hostStep_of_halted b hrun, stepResult_of_halted hrun,
    State.tick_of_halted hrun, State.tickResult_of_halted hrun⟩
  case state =>
    rw [ht, s.resetWith_nil]
    exact s.refuseLoad_eq_haltedWith _

end Sys2Proof.Machine
end

section
/-! PROOFS. Encoding (R71 to R82): decoding an encoded instruction, and the rows of the opcode map against the
decoder. -/

namespace Sys2Proof

/-! ## Decoding the word of an instruction -/

/-- The strict check lets through an ignored nibble that is free or 0 (R75, R81). -/
theorem strictCheck_eq_false {strict : Bool} {n : Nibble} (h : (!strict || n == 0) = true) :
    (strict && n != 0) = false := by
  cases strict with
  | false => rfl
  | true => simpa using h

/-- The word of a well-formed instruction decodes to it: the group and the fields of the packed word are the ones it was
packed from, and the strict check finds no ignored field. -/
theorem decode_encode {strict : Bool} {i : Instr} (h : i.wellFormed strict = true) :
    decode strict (encode i) = .ok i := by
  cases i with
  | cls ign | ret ign => simp [decode, encode, strictCheck_eq_false h]
  | seReg x y ign => rw [Machine.decode_encode_seReg, strictCheck_eq_false h]; rfl
  | sneReg x y ign => rw [Machine.decode_encode_sneReg, strictCheck_eq_false h]; rfl
  | _ => simp [decode, encode]

/-- Settles O1: the decoder evaluated on each word. -/
theorem specWordsDecode : Obligations.SpecWordsDecode := by
  unfold Obligations.SpecWordsDecode
  exact ⟨rfl, rfl, rfl, rfl, rfl, rfl, rfl, rfl, rfl, rfl⟩

/-- Settles O2: the fields of a packed word are its operands. -/
theorem decodeEncodeAgree : Obligations.DecodeEncodeAgree := by
  unfold Obligations.DecodeEncodeAgree
  exact fun _ _ h => decode_encode h

/-- Settles O3: the decoder inverted, group by group. -/
theorem decodedInstructionEncodesToItsWord : Obligations.DecodedInstructionEncodesToItsWord := by
  unfold Obligations.DecodedInstructionEncodesToItsWord
  exact fun _ _ _ h => (wellFormed_and_encode_of_decode h).symm

/-! ## A word's fields under the masks of R76 -/

theorem fieldOp_of_and_F000 {w b : Word} (h : w &&& 0xF000 = b) : fieldOp w = fieldOp b := by
  rw [← h, fieldOp, fieldOp, toNat_and_F000, Nat.mul_div_cancel _ (by decide)]

theorem fields_of_and_F00F {w b : Word} (h : w &&& 0xF00F = b) : fieldOp w = fieldOp b ∧ fieldN w = fieldN b := by
  subst h
  constructor
  · apply Fin.ext
    simp only [fieldOp, toNat_and_F00F, Fin.ofNat]
    omega
  · apply Fin.ext
    simp only [fieldN, toNat_and_F00F, Fin.ofNat]
    omega

theorem fields_of_and_F0FF {w b : Word} (h : w &&& 0xF0FF = b) : fieldOp w = fieldOp b ∧ fieldNN w = fieldNN b := by
  subst h
  constructor
  · apply Fin.ext
    simp only [fieldOp, toNat_and_F0FF, Fin.ofNat]
    omega
  · apply BitVec.eq_of_toNat_eq
    simp only [fieldNN, BitVec.toNat_setWidth, toNat_and_F0FF]
    omega

/-! ## The rows against the decoder -/

/-- A row of the map is the row of some instruction. -/
theorem exists_row_of_mem {r : OpcodeRow} (h : r ∈ opcodeRows) : ∃ i : Instr, r = i.row := by
  obtain ⟨i, -, hi⟩ := List.mem_map.1 h
  exact ⟨i, hi.symm⟩

/-- The strict mask of each of the 34 rows covers its mask, and the mask covers its match (R76). -/
theorem masks_of_mem : ∀ r ∈ opcodeRows, r.strictMask &&& r.mask = r.mask ∧ r.bits &&& r.mask = r.bits := by
  decide

/-- A word a row selects under either setting has the row's match under the row's mask. -/
theorem and_mask_of_selects {strict : Bool} {w : Word} {i : Instr} (h : i.row.selects strict w = true) :
    w &&& i.row.mask = i.row.bits := by
  obtain ⟨hmask, hbits⟩ := masks_of_mem i.row i.row_mem_opcodeRows
  cases strict with
  | false => exact beq_iff_eq.1 h
  | true =>
    have hstrict : w &&& i.row.strictMask = i.row.bits := beq_iff_eq.1 h
    rw [← hmask, ← BitVec.and_assoc, hstrict, hbits]

/-- The strict check passes a word that a row with strict mask 0xFFFF and no bits 11:8 in its match selects (R75). -/
theorem strictCheck_fieldX {strict : Bool} {w b : Word} (h : strict = true → w &&& 0xFFFF = b) (hb : fieldX b = 0) :
    (strict && fieldX w != 0) = false := by
  cases strict with
  | false => rfl
  | true =>
    obtain rfl : w = b := (and_FFFF w).symm.trans (h rfl)
    simp [hb]

/-- The strict check passes a word that a row with strict mask 0xF00F and no low nibble in its match selects (R75). -/
theorem strictCheck_fieldN {strict : Bool} {w b : Word} (h : strict = true → w &&& 0xF00F = b) (hb : fieldN b = 0) :
    (strict && fieldN w != 0) = false := by
  cases strict with
  | false => rfl
  | true => simp [(fields_of_and_F00F (h rfl)).2, hb]

/-- A word a row selects decodes to an instruction of that row: the mask shows the decoder the fields it branches on. -/
theorem decode_of_selects {strict : Bool} {w : Word} {i : Instr} (h : i.row.selects strict w = true) :
    ∃ j, decode strict w = .ok j ∧ j.row = i.row := by
  have hmask := and_mask_of_selects h
  have hstrict (hs : strict = true) : w &&& i.row.strictMask = i.row.bits := by
    subst hs
    exact beq_iff_eq.1 h
  unfold decode
  cases i with
  | jp | call | seImm | sneImm | ldImm | addImm | ldI | jpV0 | rnd | drw =>
    dsimp only [Instr.row] at hmask
    rw [fieldOp_of_and_F000 hmask]
    exact ⟨_, rfl, rfl⟩
  | ldReg | orReg | andReg | xorReg | addReg | subReg | shr | subnReg | shl =>
    dsimp only [Instr.row] at hmask
    obtain ⟨hop, hn⟩ := fields_of_and_F00F hmask
    rw [hop, hn]
    exact ⟨_, rfl, rfl⟩
  | skp | sknp | ldVxDt | ldVxK | ldDtVx | ldStVx | addI | ldF | ldB | ldMemVx | ldVxMem =>
    dsimp only [Instr.row] at hmask
    obtain ⟨hop, hnn⟩ := fields_of_and_F0FF hmask
    rw [hop, hnn]
    exact ⟨_, rfl, rfl⟩
  | cls | ret =>
    dsimp only [Instr.row] at hmask hstrict
    obtain ⟨hop, hnn⟩ := fields_of_and_F0FF hmask
    rw [hop, hnn, strictCheck_fieldX hstrict rfl]
    exact ⟨_, rfl, rfl⟩
  | seReg | sneReg =>
    dsimp only [Instr.row] at hmask hstrict
    rw [fieldOp_of_and_F000 hmask, strictCheck_fieldN hstrict rfl]
    exact ⟨_, rfl, rfl⟩

/-- Settles O4: the row of a decoded instruction selects its word, and a word that some row selects is decoded. -/
theorem decodeFollowsOpcodeMap : Obligations.DecodeFollowsOpcodeMap := by
  unfold Obligations.DecodeFollowsOpcodeMap
  refine fun strict w => ⟨fun i h => ⟨i.row_mem_opcodeRows, Laws.selects_row_of_decode h⟩, ?refused, ?unselected⟩
  case refused =>
    rintro ⟨e, he⟩ r hr
    obtain ⟨i, rfl⟩ := exists_row_of_mem hr
    by_contra hsel
    obtain ⟨j, hj, -⟩ := decode_of_selects (Bool.not_eq_false _ ▸ hsel)
    rw [he] at hj
    cases hj
  case unselected => exact Laws.decode_error_of_no_row

/-- Settles O5: a word has one decoding, and every row that selects the word is the row of that decoding. -/
theorem opcodeRowsDisjoint : Obligations.OpcodeRowsDisjoint := by
  unfold Obligations.OpcodeRowsDisjoint
  intro strict w r hr r' hr' hsel hsel'
  obtain ⟨i, rfl⟩ := exists_row_of_mem hr
  obtain ⟨i', rfl⟩ := exists_row_of_mem hr'
  obtain ⟨j, hj, hrow⟩ := decode_of_selects hsel
  obtain ⟨j', hj', hrow'⟩ := decode_of_selects hsel'
  obtain rfl : j = j' := Except.ok.inj (hj.symm.trans hj')
  exact hrow.symm.trans hrow'

end Sys2Proof
end

section
/-! PROOFS. What one instruction can do, said once: the shapes of its effect, and from them the frames of the registers
and of the other elements (R20, R23). -/

namespace Sys2Proof.Machine

/-! ## The shapes of an effect -/

/-- The state an instruction leaves is one of these updates of the state before it, each under what the instruction's
lists of writes allow it. -/
inductive Effect (i : Instr) (s : State) : State → Prop where
  /-- it raises an error -/
  | raised (k : ErrKind) (w : Option Word) (e : ErrInfo) : Effect i s (s.raise k w e)
  /-- it waits in place -/
  | wait : Effect i s s
  /-- it writes one register -/
  | result (x : Nibble) (b : Byte) (hx : x ∈ i.regWrites) : Effect i s (s.setReg x b).nextInstr
  /-- it writes one register and then the flag -/
  | resultFlag (x : Nibble) (b f : Byte) (hx : x ∈ i.regWrites) (hf : 15 ∈ i.regWrites) :
      Effect i s ((s.setReg x b).setFlag f).nextInstr
  /-- it draws the random byte into one register -/
  | random (x : Nibble) (b : Byte) (hx : x ∈ i.regWrites) (ho : .own ∈ i.elemWrites) :
      Effect i s (s.takeRnd.setReg x b).nextInstr
  /-- it loads the registers below n -/
  | load (n : Nat) (hn : n ≤ 16) (hx : ∀ r : Nibble, r.val < n → r ∈ i.regWrites) : Effect i s (s.loadRegs n).nextInstr
  /-- it stores bytes -/
  | store (a : Nat) (bs : List Byte) (hm : .mem ∈ i.elemWrites) : Effect i s (s.storeBytes a bs).nextInstr
  /-- it sets the index register -/
  | index (w : Word) (hi : .i ∈ i.elemWrites) : Effect i s (s.setIndex w).nextInstr
  /-- it sets the index register and then the flag -/
  | indexFlag (w : Word) (f : Byte) (hi : .i ∈ i.elemWrites) (hf : 15 ∈ i.regWrites) :
      Effect i s ((s.setIndex w).setFlag f).nextInstr
  /-- it clears the screen -/
  | clear (hs : .fb ∈ i.elemWrites) : Effect i s (s.setFb []).nextInstr
  /-- it draws on the screen and then sets the flag -/
  | draw (g : Framebuffer) (f : Byte) (hs : .fb ∈ i.elemWrites) (hf : 15 ∈ i.regWrites)
      (hwf : Framebuffer.wf s.fb → Framebuffer.wf g) : Effect i s ((s.setFb g).setFlag f).nextInstr
  /-- it sets the delay timer -/
  | delay (b : Byte) (ht : .dt ∈ i.elemWrites) : Effect i s (s.setDt b).nextInstr
  /-- it sets the sound timer -/
  | sound (b : Byte) (ht : .st ∈ i.elemWrites) : Effect i s (s.setSt b).nextInstr
  /-- it skips on a condition -/
  | skip (c : Bool) : Effect i s (s.skipIf c)
  /-- it jumps, at most to 0xFFF + 0xFF -/
  | jump (w : Word) (hw : w.toNat ≤ 0x10FE) : Effect i s (s.setPc w)
  /-- it calls -/
  | call (nnn : Addr) (u : State) (hp : s.push s.pc = some u) (hk : .stack ∈ i.elemWrites) (hs : .sp ∈ i.elemWrites) :
      Effect i s (u.setPc (zextAddr nnn))
  /-- it returns -/
  | ret (w : Word) (u : State) (hp : s.pop = some (w, u)) (hs : .sp ∈ i.elemWrites) : Effect i s (u.setPc (w + 2))

theorem effect_of_checkedAccess {i : Instr} {w : Word} {n : Nat} {s done t : State}
    (h : checkedAccess w n s done = .next t) (hd : Effect i s done) : Effect i s t := by
  obtain ⟨a, -, rfl⟩ | ⟨-, rfl⟩ := checkedAccess_cases h
  · exact .raised ..
  · exact hd

theorem effect_of_checkedKey {i : Instr} {w : Word} {x : Nibble} {s done t : State}
    (h : checkedKey w x s done = .next t) (hd : Effect i s done) : Effect i s t := by
  obtain ⟨-, rfl⟩ | ⟨-, rfl⟩ := checkedKey_cases h
  · exact .raised ..
  · exact hd

/-- What an instruction leaves has one of the shapes. -/
theorem exec_effect {i : Instr} {s t : State} (h : exec i s = .next t) : Effect i s t := by
  cases i with
  | cls ign => cases h; exact .clear (by simp [Instr.elemWrites])
  | ret ign =>
    cases hp : s.pop with
    | none =>
      rw [exec_ret_of_empty ign (State.pop_none.1 hp)] at h
      cases h
      exact .raised ..
    | some p =>
      rw [exec_ret_of_pop ign hp] at h
      cases h
      exact .ret p.1 p.2 hp (by simp [Instr.elemWrites])
  | call nnn =>
    cases hp : s.push s.pc with
    | none =>
      rw [exec_call_of_full nnn (State.push_none.1 hp)] at h
      cases h
      exact .raised ..
    | some u =>
      rw [exec_call_of_push nnn hp] at h
      cases h
      exact .call nnn u hp (by simp [Instr.elemWrites]) (by simp [Instr.elemWrites])
  | drw x y n =>
    cases hd : s.drawRows (s.reg x).toNat (s.reg y).toNat (List.range n.val) (s.fb, false) with
    | error info =>
      rw [exec_drw_of_error hd] at h
      cases h
      exact .raised ..
    | ok acc =>
      rw [exec_drw_of_ok hd] at h
      cases h
      exact .draw _ _ (by simp [Instr.elemWrites]) (by simp [Instr.regWrites]) (State.drawRows_wf hd)
  | ldVxK x =>
    cases hk : s.firstKey with
    | none => rw [exec_ldVxK_of_none hk] at h; cases h; exact .wait
    | some k => rw [exec_ldVxK_of_some hk] at h; cases h; exact .result _ _ (by simp [Instr.regWrites])
  | jp nnn =>
    cases h
    exact .jump _ (by have := nnn.isLt; rw [toNat_zextAddr]; omega)
  | jpV0 nnn =>
    cases h
    refine .jump _ ?_
    have hn := nnn.isLt
    have hv := (s.reg 0).isLt
    rw [toNat_zextAddr_add_zextByte]
    omega
  | skp | sknp => exact effect_of_checkedKey h (.skip _)
  | seImm | sneImm | seReg | sneReg => cases h; exact .skip _
  | ldB | ldMemVx => exact effect_of_checkedAccess h (.store _ _ (by simp [Instr.elemWrites]))
  | ldVxMem x =>
    refine effect_of_checkedAccess h (.load _ (by omega) fun r hr => ?_)
    simpa [Instr.regWrites] using Nat.lt_succ_iff.1 hr
  | ldI | ldF => cases h; exact .index _ (by simp [Instr.elemWrites])
  | addI => cases h; exact .indexFlag _ _ (by simp [Instr.elemWrites]) (by simp [Instr.regWrites])
  | rnd => cases h; exact .random _ _ (by simp [Instr.regWrites]) (by simp [Instr.elemWrites])
  | ldDtVx => cases h; exact .delay _ (by simp [Instr.elemWrites])
  | ldStVx => cases h; exact .sound _ (by simp [Instr.elemWrites])
  | addReg | subReg | shr | subnReg | shl =>
    cases h
    exact .resultFlag _ _ _ (by simp [Instr.regWrites]) (by simp [Instr.regWrites])
  | ldImm | addImm | ldReg | orReg | andReg | xorReg | ldVxDt =>
    cases h
    exact .result _ _ (by simp [Instr.regWrites])

/-! ## The registers an instruction writes -/

theorem State.regsFrame_setReg {s t : State} {changed : List Nibble} {x : Nibble} (b : Byte) (h : s.regsFrame changed t)
    (hx : x ∈ changed) : s.regsFrame changed (t.setReg x b) := by
  intro r hr
  rw [State.reg_setReg_other _ _ (ne_of_mem_of_not_mem hx hr).symm, h r hr]

theorem State.regsFrame_of_v {s t : State} {changed : List Nibble} (h : t.v = s.v) : s.regsFrame changed t :=
  fun r _ => State.reg_congr h r

/-- Settles O20: in each shape the registers written are those of the instruction's list. -/
theorem onlyListedInstructionsWriteRegisters : Obligations.OnlyListedInstructionsWriteRegisters := by
  unfold Obligations.OnlyListedInstructionsWriteRegisters
  intro i s t h
  cases exec_effect h with
  | result x b hx => exact State.regsFrame_setReg (t := s) b (State.regsFrame_of_v rfl) hx
  | resultFlag x b f hx hf =>
    exact State.regsFrame_setReg (t := s.setReg x b) f (State.regsFrame_setReg b (State.regsFrame_of_v rfl) hx) hf
  | random x b hx => exact State.regsFrame_setReg (t := s.takeRnd) b (State.regsFrame_of_v s.takeRnd_v) hx
  | load n hn hx =>
    intro r hr
    rw [State.reg_nextInstr, State.reg_loadRegs s hn, if_neg (mt (hx r) hr)]
  | indexFlag w f hi hf => exact State.regsFrame_setReg (t := s.setIndex w) f (State.regsFrame_of_v rfl) hf
  | draw g f hs hf => exact State.regsFrame_setReg (t := s.setFb g) f (State.regsFrame_of_v rfl) hf
  | call nnn u hp =>
    obtain ⟨-, rfl⟩ := State.push_cases hp
    exact State.regsFrame_of_v rfl
  | ret w u hp =>
    obtain ⟨-, -, rfl⟩ := State.pop_cases hp
    exact State.regsFrame_of_v rfl
  | store a bs => exact State.regsFrame_of_v (s.storeBytes_v a bs)
  | skip c => exact State.regsFrame_of_v (s.skipIf_v c)
  | _ => exact State.regsFrame_of_v rfl

/-! ## The other elements an instruction writes -/

theorem State.frame.mono {s t : State} {l l' : List Elem} (h : s.frame l t) (hl : l ⊆ l') : s.frame l' t :=
  fun e he => h e fun hm => he (hl hm)

theorem State.frame_raise (s : State) (k : ErrKind) (w : Option Word) (e : ErrInfo) :
    s.frame [.run, .err] (s.raise k w e) := by
  intro el he
  cases el with
  | run | err => simp at he
  | mem | v | fb => exact fun _ => rfl
  | own => exact ⟨rfl, rfl, rfl⟩
  | _ => rfl

theorem State.frame_random (s : State) (x : Nibble) (b : Byte) :
    s.frame [.v, .pc, .own] (s.takeRnd.setReg x b).nextInstr := by
  intro e he
  cases e with
  | v | pc | own => simp at he
  | mem => exact State.memRead_congr s.takeRnd_mem s.takeRnd_cfg
  | fb => exact fun k => congrArg (Framebuffer.cell · k) s.takeRnd_fb
  | _ => simp [State.agree]

/-- Whatever an instruction leaves, the elements outside its list are as before, but for the registers, the pc, RUN and
ERR: each shape changes what its frame says, which the list allows. -/
theorem exec_frame {i : Instr} {s t : State} (h : exec i s = .next t) :
    s.frame (i.elemWrites ++ [.v, .pc, .run, .err]) t := by
  cases exec_effect h with
  | raised k w e => exact (s.frame_raise k w e).mono (by simp)
  | wait => exact (s.frame_setPc s.pc).mono (by simp)
  | result | resultFlag => exact (s.frame_of_regs_pc _ _).mono (by simp)
  | random x b hx ho => exact (s.frame_random x b).mono (by simp [ho])
  | load n => exact (s.frame_loadRegs n).mono (by simp)
  | store a bs hm => exact (s.frame_storeBytes a bs).mono (by simp [hm])
  | index w hi => exact State.frame_of_index _ _ (by simp [hi]) (by simp) fun _ => rfl
  | indexFlag w f hi => exact State.frame_of_index _ _ (by simp [hi]) (by simp) (by simp)
  | clear hs => exact State.frame_of_display _ _ (by simp [hs]) (by simp) fun _ => rfl
  | draw g f hs => exact State.frame_of_display _ _ (by simp [hs]) (by simp) (by simp)
  | delay b ht => exact State.frame_of_timers (by simp [ht]) (fun _ => rfl) (by simp)
  | sound b ht => exact State.frame_of_timers (fun _ => rfl) (by simp [ht]) (by simp)
  | skip c => exact (s.frame_skipIf c).mono (by simp)
  | jump w => exact (s.frame_setPc w).mono (by simp)
  | call nnn u hp hk hs => exact (State.frame_setPc_of_push hp _).mono (by simp [hk, hs])
  | ret w u hp hs => exact (State.frame_setPc_of_pop hp _).mono (by simp [hs])

/-- Settles O21: the frame of every instruction. -/
theorem onlyListedInstructionsWriteElements : Obligations.OnlyListedInstructionsWriteElements := by
  unfold Obligations.OnlyListedInstructionsWriteElements
  exact fun _ _ _ h => exec_frame h

/-- No instruction changes the key table (R38). -/
theorem exec_key {i : Instr} {s t : State} (h : exec i s = .next t) : t.key = s.key :=
  exec_frame h .key (by cases i <;> simp [Instr.elemWrites])

/-- Only CALL and RET write the call stack and SP (R30, R31). -/
theorem exec_stack_sp {i : Instr} {s t : State} (h : exec i s = .next t) (hcall : ∀ nnn, i ≠ .call nnn)
    (hret : ∀ ign, i ≠ .ret ign) : t.stack = s.stack ∧ t.sp = s.sp := by
  have hstack : Elem.stack ∉ i.elemWrites ++ [.v, .pc, .run, .err] := by
    cases i with
    | call nnn => exact absurd rfl (hcall nnn)
    | _ => simp [Instr.elemWrites]
  have hsp : Elem.sp ∉ i.elemWrites ++ [.v, .pc, .run, .err] := by
    cases i with
    | call nnn => exact absurd rfl (hcall nnn)
    | ret ign => exact absurd rfl (hret ign)
    | _ => simp [Instr.elemWrites]
  exact ⟨exec_frame h .stack hstack, exec_frame h .sp hsp⟩

end Sys2Proof.Machine
end

section
/-! PROOFS. Balanced calls (R119): what a balanced sequence keeps of the call stack, and where its return goes. -/

namespace Sys2Proof.Machine

/-- `t` has the SP of `s` and its occupied stack entries. -/
def State.stackKept (s t : State) : Prop := t.sp = s.sp ∧ ∀ j : Fin 16, j.val < s.sp.val → t.stack[j] = s.stack[j]

theorem State.stackKept_of_eq {s t : State} (hstack : t.stack = s.stack) (hsp : t.sp = s.sp) : s.stackKept t :=
  ⟨hsp, fun j _ => by rw [hstack]⟩

theorem State.stackKept.trans {s t u : State} (h₁ : s.stackKept t) (h₂ : t.stackKept u) : s.stackKept u :=
  ⟨h₂.1.trans h₁.1, fun j hj => (h₂.2 j (h₁.1 ▸ hj)).trans (h₁.2 j hj)⟩

/-- A CALL that completes pushed its own address (R113). -/
theorem push_of_exec_call {nnn : Addr} {s t : State} (h : exec (.call nnn) s = .next t) (ht : t.run = .running) :
    ∃ u, s.push s.pc = some u ∧ t = u.setPc (zextAddr nnn) := by
  cases hp : s.push s.pc with
  | none =>
    rw [exec_call_of_full nnn (State.push_none.1 hp)] at h
    cases h
    cases ht
  | some u =>
    rw [exec_call_of_push nnn hp] at h
    cases h
    exact ⟨u, rfl, rfl⟩

/-- A RET that completes popped an entry and went two past it (R111). -/
theorem pop_of_exec_ret {ign : Nibble} {s t : State} (h : exec (.ret ign) s = .next t) (ht : t.run = .running) :
    ∃ w u, s.pop = some (w, u) ∧ t = u.setPc (w + 2) := by
  cases hp : s.pop with
  | none =>
    rw [exec_ret_of_empty ign (State.pop_none.1 hp)] at h
    cases h
    cases ht
  | some p =>
    rw [exec_ret_of_pop ign hp] at h
    cases h
    exact ⟨p.1, p.2, rfl, rfl⟩

/-- A call and a return between which the occupied stack is kept: the return finds the call site on top, and the stack
below it is the one before the call. -/
theorem call_ret_of_stackKept {nnn : Addr} {ign : Nibble} {s t u w : State} (hcall : exec (.call nnn) s = .next t)
    (ht : t.run = .running) (hbody : t.stackKept u) (hret : exec (.ret ign) u = .next w) (hw : w.run = .running) :
    w.pc = s.pc + 2 ∧ s.stackKept w := by
  obtain ⟨t', hpush, rfl⟩ := push_of_exec_call hcall ht
  obtain ⟨a, w', hpop, rfl⟩ := pop_of_exec_ret hret hw
  obtain ⟨hsp, hstack⟩ := hbody
  obtain ⟨hlt, -⟩ := State.push_cases hpush
  have htsp := State.sp_of_push hpush
  have husp : u.sp.val = s.sp.val + 1 := hsp ▸ htsp
  have htop : u.sp.val = (⟨s.sp.val, hlt⟩ : Fin 16).val + 1 := husp
  obtain ⟨hwsp, ha⟩ := State.pop_of_sp htop hpop
  have hkept (j : Fin 16) (hj : j.val ≤ s.sp.val) : u.stack[j] = if j.val = s.sp.val then s.pc else s.stack[j] :=
    (hstack j (htsp ▸ Nat.lt_succ_of_le hj)).trans (State.stack_getElem_of_push hpush j)
  have hwstack : w'.stack = u.stack := by
    obtain ⟨-, -, rfl⟩ := State.pop_cases hpop
    rfl
  refine ⟨?_, Fin.ext hwsp, fun j hj => ?_⟩
  · rw [State.setPc_pc, ha, hkept _ (Nat.le_refl _), if_pos rfl]
  · rw [State.setPc_stack, hwstack, hkept j hj.le, if_neg hj.ne]

/-- A balanced sequence keeps SP and the occupied entries. -/
theorem Balanced.stackKept {s t : State} (h : Balanced s t) : s.stackKept t := by
  induction h with
  | nothing s => exact State.stackKept_of_eq rfl rfl
  | other i hcall hret h _ =>
    obtain ⟨hstack, hsp⟩ := exec_stack_sp h hcall hret
    exact State.stackKept_of_eq hstack hsp
  | ticked s =>
    unfold State.tick
    cases s.run <;> exact State.stackKept_of_eq rfl rfl
  | keysSet s k => exact State.stackKept_of_eq rfl rfl
  | subroutine nnn ign hcall ht _ hret hw ih => exact (call_ret_of_stackKept hcall ht ih hret hw).2
  | andThen _ _ ih₁ ih₂ => exact ih₁.trans ih₂

/-- Settles O33: the balanced sequence keeps the entry the call pushed. -/
theorem balancedCallReturnsPastCallSite : Obligations.BalancedCallReturnsPastCallSite := by
  unfold Obligations.BalancedCallReturnsPastCallSite
  intro nnn ign s t u w hcall ht hbody hret hw
  obtain ⟨hpc, hsp, -⟩ := call_ret_of_stackKept hcall ht hbody.stackKept hret hw
  exact ⟨hpc, hsp⟩

end Sys2Proof.Machine
end

section
/-! PROOFS. The cycle as a whole (R90 to R101): every state has a next one, what a step can do, said once, and what
every step keeps. -/

namespace Sys2Proof.Machine

/-! ## Every state has a next state -/

theorem checkedAccess_next (w : Word) (n : Nat) (s done : State) : ∃ t, checkedAccess w n s done = .next t := by
  unfold checkedAccess
  split <;> exact ⟨_, rfl⟩

theorem checkedKey_next (w : Word) (x : Nibble) (s done : State) : ∃ t, checkedKey w x s done = .next t := by
  unfold checkedKey
  split <;> exact ⟨_, rfl⟩

/-- Every instruction answers a next state: those that choose do so on each of their paths. -/
theorem exec_next (i : Instr) (s : State) : ∃ t, exec i s = .next t := by
  cases i with
  | ret ign =>
    simp only [exec, execRet]
    split <;> exact ⟨_, rfl⟩
  | call nnn =>
    simp only [exec, execCall]
    split <;> exact ⟨_, rfl⟩
  | drw x y n =>
    simp only [exec, execDrw]
    split <;> exact ⟨_, rfl⟩
  | ldVxK x =>
    simp only [exec, execLdVxK]
    split <;> exact ⟨_, rfl⟩
  | ldB | ldMemVx | ldVxMem => exact checkedAccess_next ..
  | skp | sknp => exact checkedKey_next ..
  | _ => exact ⟨_, rfl⟩

theorem stepBody_next (s : State) : ∃ t, stepBody s = .next t := by
  unfold stepBody
  split
  · exact exec_next _ s
  · exact ⟨_, rfl⟩

theorem step_of_stepBody {s t : State} (hr : s.run = .running) (h : stepBody s = .next t) :
    step s = .next t.timerTick := by
  simp [step, hr, h, finishCycle]

theorem step_next (s : State) : ∃ t, step s = .next t := by
  cases hr : s.run with
  | halted => exact ⟨s, step_of_halted hr⟩
  | running =>
    obtain ⟨t, ht⟩ := stepBody_next s
    exact ⟨_, step_of_stepBody hr ht⟩

/-- Settles O11: no path of fetching, decoding or executing answers anything but a next state. -/
theorem stepAlwaysAnswersNextState : Obligations.StepAlwaysAnswersNextState := by
  unfold Obligations.StepAlwaysAnswersNextState
  exact step_next

/-! ## What a step can do -/

/-- A property of the state a step leaves: it holds where the machine is halted already, after an error, after every
instruction, and a tick keeps it. -/
theorem step_induction {P : State → Prop} {s t : State} (h : step s = .next t) (hhalted : s.run = .halted → P s)
    (hraise : ∀ k w e, P (s.raise k w e)) (hexec : ∀ i u, s.fetch = .ok (encode i) → exec i s = .next u → P u)
    (htick : ∀ u, P u → P u.tickBody) : P t := by
  cases hr : s.run with
  | halted =>
    rw [step_of_halted hr] at h
    cases h
    exact hhalted hr
  | running =>
    obtain ⟨u, hu⟩ := stepBody_next s
    rw [step_of_stepBody hr hu] at h
    cases h
    have hPu : P u := by
      obtain ⟨-, rfl⟩ | ⟨w, -, rfl⟩ | ⟨i, hf, he⟩ := stepBody_cases hu
      · exact hraise ..
      · exact hraise ..
      · exact hexec i u hf he
    unfold State.timerTick
    split
    · exact htick u hPu
    · exact hPu

/-- Settles O19: errors, instructions and ticks all keep the key table and the parameters. -/
theorem stepKeepsKeysAndParameters : Obligations.StepKeepsKeysAndParameters := by
  unfold Obligations.StepKeepsKeysAndParameters
  intro s t h
  exact step_induction (P := fun u => u.key = s.key ∧ u.cfg = s.cfg) h (fun _ => ⟨rfl, rfl⟩) (fun _ _ _ => ⟨rfl, rfl⟩)
    (fun _ _ _ he => ⟨exec_key he, exec_cfg he⟩) fun _ hu => hu

/-- The instruction to execute is the decoding of the two bytes at the pc, when they are in bounds (R92, R93). -/
theorem State.fetchDecode_of_decode {s : State} {i : Instr} (hb : s.outOfBounds (s.pc.toNat + 1) = false)
    (hd : decode s.cfg.strictDecode (wordOfBytes (s.memRead s.pc.toNat) (s.memRead (s.pc.toNat + 1))) = .ok i) :
    s.fetchDecode = .ok i := by
  simp [State.fetchDecode, State.fetch_of_inBounds hb, State.decodeWord, hd]

/-- Settles O6: the fetched bytes are in bounds, and the tick that ends the cycle is the parameter's. -/
theorem stepRunsDecodedInstruction : Obligations.StepRunsDecodedInstruction := by
  unfold Obligations.StepRunsDecodedInstruction
  intro s i hr hb hd
  have hstep := step_of_fetchDecode hr (State.fetchDecode_of_decode hb hd)
  refine ⟨hstep, ?_⟩
  rintro ⟨t, ht, hc⟩
  rw [hstep, ht]
  simp [finishCycle, State.timerTick, State.ticksInStep, hc]

/-- Settles O12: an instruction that halts a running state has raised one of its errors. -/
theorem instructionRaisesOnlyItsErrors : Obligations.InstructionRaisesOnlyItsErrors := by
  unfold Obligations.InstructionRaisesOnlyItsErrors
  intro i s t hr he ht
  obtain hrun | ⟨k, info, rfl, hmay⟩ := exec_run_or_raise he
  · rw [hrun, hr] at ht
    cases ht
  · exact ⟨_, rfl, hmay, rfl, rfl⟩

/-! ## The ends of a run -/

/-- The word at an idle pc is that of the jump to it (R101). -/
theorem or_0x1000_eq_encode_jp {p : Word} (h : p.toNat ≤ 0x0FFE) :
    (0x1000 : Word) ||| p = encode (.jp (p.setWidth 12)) := by
  have hp : p.toNat < 2 ^ 12 := by omega
  have hor : ((0x1000 : Word) ||| p).toNat = 1 <<< 12 ||| p.toNat := BitVec.toNat_or ..
  apply BitVec.eq_of_toNat_eq
  rw [hor, ← Nat.shiftLeft_add_eq_or_of_lt hp, encode, packNNN, BitVec.toNat_ofNat, BitVec.toNat_setWidth,
    Nat.mod_eq_of_lt hp]
  change 4096 + p.toNat = (4096 + p.toNat) % 65536
  omega

/-- The 12-bit field of a jump holds every pc below 4096. -/
theorem zextAddr_setWidth {p : Word} (h : p.toNat ≤ 0x0FFE) : zextAddr (p.setWidth 12) = p := by
  apply BitVec.eq_of_toNat_eq
  rw [toNat_zextAddr, BitVec.toNat_setWidth]
  omega

/-- An idle state fetches and decodes the jump to its own pc, which leaves it as it is. -/
theorem step_of_idleAt {s : State} {p : Word} (h : s.idleAt p) : step s = .next s.timerTick := by
  obtain ⟨hr, rfl, hp, hw⟩ := h
  have hb : s.outOfBounds (s.pc.toNat + 1) = false := State.outOfBounds_eq_false.2 fun _ => by omega
  have hd : s.fetchDecode = .ok (.jp (s.pc.setWidth 12)) := by
    apply State.fetchDecode_of_decode hb
    rw [hw, or_0x1000_eq_encode_jp hp]
    exact decode_encode rfl
  have hjump : exec (.jp (s.pc.setWidth 12)) s = .next s :=
    congrArg (fun w => Host.Outcome.next (s.setPc w)) (zextAddr_setWidth hp)
  rw [step_of_fetchDecode hr hd, hjump]
  rfl

/-- Settles O14: an idle state jumps to itself, so only the tick that ends the cycle can change it. -/
theorem idleAndHaltedStatesStay : Obligations.IdleAndHaltedStatesStay := by
  unfold Obligations.IdleAndHaltedStatesStay
  refine fun s p => ⟨fun h hc => ?uncoupled, fun h hc => ?coupled, step_of_halted⟩
  case uncoupled =>
    rw [step_of_idleAt h, State.timerTick, State.ticksInStep, hc]
    rfl
  case coupled =>
    have htick : s.timerTick = s.tickBody := by
      simp [State.timerTick, State.ticksInStep_of_running h.1, hc]
    exact ⟨_, step_of_idleAt h, htick ▸ State.frame_of_timers (by simp) (by simp) fun _ => rfl⟩

end Sys2Proof.Machine
end

section
/-! PROOFS. Invariants (R27, R48): the canonical form of memory and framebuffer, Halted and the error latch, and the
reach of the pc. -/

namespace Sys2Proof.Machine

/-! ## The invariant, operation by operation -/

/-- The invariant speaks of memory, the framebuffer, RUN, ERR and the parameters alone. -/
theorem State.Inv.congr {s t : State} (h : s.Inv) (hmem : t.mem = s.mem) (hfb : t.fb = s.fb) (hrun : t.run = s.run)
    (herr : t.err = s.err) (hcfg : t.cfg = s.cfg) : t.Inv := by
  unfold State.Inv
  rw [hmem, hfb, hrun, herr, hcfg]
  exact h

theorem State.Inv.raise {s : State} (h : s.Inv) (k : ErrKind) (w : Option Word) (e : ErrInfo) : (s.raise k w e).Inv :=
  ⟨h.1, h.2.1, by simp⟩

theorem State.Inv.storeBytes {s : State} (h : s.Inv) (a : Nat) (bs : List Byte) : (s.storeBytes a bs).Inv := by
  obtain ⟨hmem, hfb, hrun⟩ := h
  refine ⟨?_, ?_, ?_⟩
  · rw [State.storeBytes_cfg]
    exact State.storeBytes_wf hmem a bs
  · rwa [State.storeBytes_fb]
  · rwa [State.storeBytes_run, State.storeBytes_err]

theorem Cells.wf_nil (bg : Nat → Byte) (size : Nat) : Cells.wf bg size [] :=
  ⟨List.Pairwise.nil, by simp⟩

theorem Framebuffer.wf_nil : Framebuffer.wf [] :=
  ⟨Cells.wf_nil _ _, by simp⟩

/-- Every instruction keeps the invariant: each shape keeps RUN and ERR or raises an error, and what it writes to memory
and the framebuffer is in canonical form. -/
theorem State.Inv.exec {i : Instr} {s t : State} (hs : s.Inv) (h : exec i s = .next t) : t.Inv := by
  cases exec_effect h with
  | raised k w e => exact hs.raise k w e
  | store a bs => exact hs.storeBytes a bs
  | clear => exact ⟨hs.1, Framebuffer.wf_nil, hs.2.2⟩
  | draw g f _ _ hwf => exact ⟨hs.1, hwf hs.2.1, hs.2.2⟩
  | random x b => exact hs.congr (by simp) (by simp) (by simp) (by simp) (by simp)
  | load n =>
    rw [State.loadRegs_eq]
    exact hs
  | skip c => exact hs.congr (by simp) (by simp) (by simp) (by simp) (by simp)
  | call nnn u hp =>
    obtain ⟨-, rfl⟩ := State.push_cases hp
    exact hs
  | ret w u hp =>
    obtain ⟨-, -, rfl⟩ := State.pop_cases hp
    exact hs
  | _ => exact hs

theorem State.Inv.step {s t : State} (hs : s.Inv) (h : step s = .next t) : t.Inv :=
  step_induction h (fun _ => hs) (fun k w e => hs.raise k w e) (fun _ _ _ he => hs.exec he) fun _ hu => hu

/-- Settles O15: errors, instructions and ticks all keep the invariant. -/
theorem stepKeepsInvariant : Obligations.StepKeepsInvariant := by
  unfold Obligations.StepKeepsInvariant
  exact fun _ _ hs h => hs.step h

/-! ## The invariant along the host's operations -/

theorem State.Inv.clear (s : State) : s.clear.Inv :=
  ⟨Cells.wf_nil _ _, Framebuffer.wf_nil, by simp⟩

/-- Every reset, accepted or refused, establishes the invariant, from any state. -/
theorem State.Inv.resetWith (s : State) (image : Option (List Byte)) : (s.resetWith image).Inv := by
  by_cases himage : ∀ l, image = some l → 3584 < l.length
  case pos =>
    rw [s.resetWith_of_refused himage]
    exact (State.Inv.clear s).raise ..
  case neg =>
    push Not at himage
    obtain ⟨l, rfl, hl⟩ := himage
    rw [s.resetWith_of_length_le hl]
    exact (State.Inv.clear s).storeBytes ..

theorem State.Inv.tick {s : State} (h : s.Inv) : s.tick.Inv := by
  unfold State.tick
  split
  · exact h
  · exact h

/-- The host's step is a step with the supplied byte in the model's queue, which the invariant does not read. -/
theorem State.Inv.hostStep {s : State} (h : s.Inv) (b : Byte) : (hostStep s b).Inv := by
  obtain ⟨t, ht⟩ := step_next (s.supplyRnd b)
  have hsupplied : (s.supplyRnd b).Inv := h
  have hstepped : t.Inv := hsupplied.step ht
  unfold Machine.hostStep
  rw [ht]
  exact hstepped

theorem State.Inv.apply {s : State} (h : s.Inv) (op : HostOp) : (s.apply op).Inv := by
  cases op with
  | reset image => exact State.Inv.resetWith s image
  | step b => exact h.hostStep b
  | tick => exact h.tick
  | setKeys k => exact h

theorem State.Inv.foldl_apply {s : State} (h : s.Inv) (ops : List HostOp) : (ops.foldl State.apply s).Inv := by
  induction ops generalizing s with
  | nil => exact h
  | cons op ops ih => exact ih (h.apply op)

/-- Settles O17: the reset establishes the invariant, every operation keeps it, and SP is at most 16 by its type. -/
theorem hostOperationsKeepInvariants : Obligations.HostOperationsKeepInvariants := by
  unfold Obligations.HostOperationsKeepInvariants
  intro s image ops t
  obtain ⟨-, hfb, hrun⟩ : t.Inv := (State.Inv.resetWith s image).foldl_apply ops
  exact ⟨Nat.le_of_lt_succ t.sp.isLt, Framebuffer.cell_zero_or_one hfb, hrun⟩

/-- Settles O16: the reset state is a cleared state, with the pc at 0x200 and an empty stack. -/
theorem resetSatisfiesInvariants : Obligations.ResetSatisfiesInvariants := by
  unfold Obligations.ResetSatisfiesInvariants
  exact ⟨State.Inv.clear State.reset, by decide, fun j hj => absurd hj (Nat.not_lt_zero _)⟩

/-! ## The reach of the pc -/

/-- A transition that keeps the call stack keeps the bound when its pc is in reach. -/
theorem State.PcBounded.of_pc {s t : State} (h : s.PcBounded) (hpc : t.pc.toNat ≤ 0x10FE)
    (hstack : t.stack = s.stack) (hsp : t.sp = s.sp) : t.PcBounded :=
  ⟨hpc, fun j hj => by rw [hstack]; exact h.2 j (hsp ▸ hj)⟩

/-- An instruction at an address up to 0x0FFE keeps the bound: it goes on by at most 4, or jumps to at most
0xFFF + 0xFF, or pushes its own address, or returns to two past a pushed one. -/
theorem State.PcBounded.exec {i : Instr} {s t : State} (hs : s.PcBounded) (hpc : s.pc.toNat ≤ 0x0FFE)
    (h : exec i s = .next t) : t.PcBounded := by
  have hnext : (s.pc + 2).toNat ≤ 0x10FE := by bv_omega
  have hskip : (s.pc + 4).toNat ≤ 0x10FE := by bv_omega
  cases exec_effect h with
  | raised | wait => exact hs
  | jump w hw => exact hs.of_pc hw rfl rfl
  | skip c =>
    refine hs.of_pc ?_ (s.skipIf_stack c) (s.skipIf_sp c)
    rw [State.skipIf_pc]
    split
    · exact hskip
    · exact hnext
  | call nnn u hp =>
    refine ⟨?_, fun j hj => ?_⟩
    · have hn := nnn.isLt
      rw [State.setPc_pc, toNat_zextAddr]
      omega
    · rw [State.setPc_sp, State.sp_of_push hp] at hj
      rw [State.setPc_stack, State.stack_getElem_of_push hp]
      split
      · exact hpc
      · exact hs.2 j (by omega)
  | ret w u hp =>
    obtain ⟨hpos, rfl, rfl⟩ := State.pop_cases hp
    have htop : s.stack[s.sp.val - 1].toNat ≤ 0x0FFE := hs.2 ⟨s.sp.val - 1, by omega⟩ (Nat.sub_lt hpos Nat.one_pos)
    refine ⟨?_, fun j hj => hs.2 j (Nat.lt_of_lt_of_le hj (Nat.sub_le _ _))⟩
    rw [State.setPc_pc]
    bv_omega
  | random => exact hs.of_pc (by simpa using hnext) (by simp) (by simp)
  | load n =>
    rw [State.loadRegs_eq]
    exact hs.of_pc hnext rfl rfl
  | store => exact hs.of_pc (by simpa using hnext) (by simp) (by simp)
  | _ => exact hs.of_pc hnext rfl rfl

/-- Under fault a pc that is fetched is at most 0x0FFE (R55). -/
theorem State.pc_le_of_fetch {s : State} {w : Word} (hf : s.cfg.memOob = .fault) (h : s.fetch = .ok w) :
    s.pc.toNat ≤ 0x0FFE := by
  by_contra hpc
  rw [State.fetch_of_outOfBounds (State.outOfBounds_eq_true.2 ⟨hf, by omega⟩)] at h
  cases h

/-- Settles O18: an executed instruction was fetched, so it stands at 0x0FFE or below. -/
theorem pcStaysBounded : Obligations.PcStaysBounded := by
  unfold Obligations.PcStaysBounded
  intro s t hf hs h
  refine ⟨?bounded, fun ⟨w, hw⟩ => State.pc_le_of_fetch hf hw⟩
  case bounded =>
    exact step_induction h (fun _ => hs) (fun _ _ _ => hs) (fun _ _ hw he => hs.exec (State.pc_le_of_fetch hf hw) he)
      fun _ hu => hu

end Sys2Proof.Machine
end

section
/-! PROOFS. Two instructions in a row: a dump and its load (R157), a dump over the next instruction (R65), and the same
sprite drawn twice (R171, R173). -/

namespace Sys2Proof.Machine

/-! ## A dump, and what reads it -/

/-- A dump within memory completes: every register stands at its address, and only memory and the pc are changed. -/
theorem State.dump_stores {x : Nibble} {s t : State} (hin : s.i.toNat + x.val < 4096)
    (h : exec (.ldMemVx x) s = .next t) :
    s.frame [.mem, .pc] t ∧ ∀ r : Nibble, r ≤ x → t.memRead (s.address r.val) = s.reg r := by
  obtain ⟨t', ht', -, hframe, hstored, -⟩ := (dumpStoresRegisters x s).1 fun _ => hin
  obtain rfl : t' = t := Host.Outcome.next.inj (ht'.symm.trans h)
  exact ⟨hframe, hstored⟩

/-- Settles O39: the load reads, at the addresses the dump used, the bytes the dump stored there. -/
theorem dumpThenLoadRestores : Obligations.DumpThenLoadRestores := by
  unfold Obligations.DumpThenLoadRestores
  intro k s t v hin h
  obtain ⟨hframe, hstored⟩ := State.dump_stores hin h
  have hi : t.i = s.i := hframe .i (by simp)
  obtain ⟨u, hu, -, huframe, hloaded⟩ := (loadReadsRegisters k { t with v := v }).1 fun _ => by simpa [hi] using hin
  have hui : u.i = t.i := huframe .i (by simp)
  refine ⟨u, hu, hui.trans hi, fun r hr => ?_⟩
  calc u.reg r
      = t.memRead (t.address r.val) := by rw [hloaded, if_pos hr]; rfl
    _ = t.memRead (s.address r.val) := by rw [State.address, hi, State.address]
    _ = s.reg r := hstored r hr

/-- Settles O40: the two bytes of the next fetch are among those the dump stored. -/
theorem storedCodeIsFetched : Obligations.StoredCodeIsFetched := by
  unfold Obligations.StoredCodeIsFetched
  intro x r q s t hin h hq hqr hpc
  obtain ⟨-, hstored⟩ := State.dump_stores hin h
  have hqx : q.val ≤ x.val := hq
  have hrx : r ≤ x := Fin.le_def.2 (by omega)
  have hlo : t.pc.toNat + 1 = s.address q.val := by rw [State.address, hpc, hqr, Nat.add_assoc]
  have hhi : t.pc.toNat = s.address r.val := hpc
  have hb : t.outOfBounds (t.pc.toNat + 1) = false := State.outOfBounds_eq_false.2 fun _ => by omega
  rw [State.fetch_of_inBounds hb, hlo, hhi, hstored q hq, hstored r hrx]

/-! ## The same sprite drawn twice -/

/-- Two states with the same sprite: the same memory, index register and parameters. -/
def State.sameSprite (s t : State) : Prop := (∀ a, t.memRead a = s.memRead a) ∧ t.i = s.i ∧ t.cfg = s.cfg

theorem State.sameSprite.spriteBit {s t : State} (h : s.sameSprite t) (r c : Nat) :
    t.spriteBit r c = s.spriteBit r c := by
  rw [State.spriteBit, State.spriteBit, h.1, h.2.1]

theorem State.sameSprite.covers_iff {s t : State} (h : s.sameSprite t) (cx cy n k : Nat) :
    t.covers cx cy n k ↔ s.covers cx cy n k := by
  simp only [State.covers, h.spriteBit, h.2.2]

theorem State.sameSprite.drawable_iff {s t : State} (h : s.sameSprite t) (cx cy n : Nat) :
    t.drawable cx cy n ↔ s.drawable cx cy n := by
  simp only [State.drawable, State.outOfBounds, h.spriteBit, h.2.1, h.2.2]

/-- What a drawn sprite leaves (R171): the covered cells flipped, the others as before, the collision in VF, and the
same sprite. -/
theorem drawn_of_exec_drw {x y n : Nibble} {s t : State} (hd : s.drawable (s.reg x).toNat (s.reg y).toNat n.val)
    (h : exec (.drw x y n) s = .next t) :
    s.sameSprite t ∧
    (∀ k, s.covers (s.reg x).toNat (s.reg y).toNat n.val k → t.fb.cell k = s.fb.cell k ^^^ 1) ∧
    (∀ k, ¬ s.covers (s.reg x).toNat (s.reg y).toNat n.val k → t.fb.cell k = s.fb.cell k) ∧
    ((∃ k, s.covers (s.reg x).toNat (s.reg y).toNat n.val k ∧ s.fb.cell k = 1) → t.reg 15 = 1) ∧
    ((∀ k, s.covers (s.reg x).toNat (s.reg y).toNat n.val k → s.fb.cell k ≠ 1) → t.reg 15 = 0) := by
  obtain ⟨t', ht', hflip, hkeep, hset, hclear, -, -, hframe⟩ :=
    (drawXorsSpriteOrReportsFirstFailingCheck x y n s).1 hd
  obtain rfl : t' = t := Host.Outcome.next.inj (ht'.symm.trans h)
  exact ⟨⟨hframe .mem (by simp), hframe .i (by simp), exec_cfg h⟩, hflip, hkeep, hset, hclear⟩

/-- The second of two identical draws flips the same cells back, and its collision is that of the flipped cells. -/
theorem exec_drw_twice {x y n : Nibble} {s t : State} (hd : s.drawable (s.reg x).toNat (s.reg y).toNat n.val)
    (h : exec (.drw x y n) s = .next t) (hx : t.reg x = s.reg x) (hy : t.reg y = s.reg y) :
    ∃ u, exec (.drw x y n) t = .next u ∧ (∀ k, u.fb.cell k = s.fb.cell k) ∧
      ((∃ k, s.covers (s.reg x).toNat (s.reg y).toNat n.val k ∧ s.fb.cell k = 0) → u.reg 15 = 1) ∧
      ((∀ k, s.covers (s.reg x).toNat (s.reg y).toNat n.val k → s.fb.cell k = 1) → u.reg 15 = 0) := by
  obtain ⟨hsprite, hflip, hkeep, -, -⟩ := drawn_of_exec_drw hd h
  obtain ⟨u, hu⟩ := exec_next (.drw x y n) t
  have hd' : t.drawable (t.reg x).toNat (t.reg y).toNat n.val := by rwa [hx, hy, hsprite.drawable_iff]
  obtain ⟨-, hflip', hkeep', hset', hclear'⟩ := drawn_of_exec_drw hd' hu
  simp only [hx, hy, hsprite.covers_iff] at hflip' hkeep' hset' hclear'
  refine ⟨u, hu, fun k => ?restored, ?collision, ?noCollision⟩
  case restored =>
    by_cases hk : s.covers (s.reg x).toNat (s.reg y).toNat n.val k
    case pos => rw [hflip' k hk, hflip k hk, BitVec.xor_assoc, BitVec.xor_self, BitVec.xor_zero]
    case neg => rw [hkeep' k hk, hkeep k hk]
  case collision =>
    rintro ⟨k, hk, hzero⟩
    exact hset' ⟨k, hk, by rw [hflip k hk, hzero]; rfl⟩
  case noCollision =>
    intro hone
    refine hclear' fun k hk => ?_
    rw [hflip k hk, hone k hk]
    decide

/-- Settles O43: two flips restore a cell, and a covered cell is set before the second draw iff it was clear before the
first. -/
theorem doubleDrawRestores : Obligations.DoubleDrawRestores := by
  unfold Obligations.DoubleDrawRestores
  exact fun _ _ _ _ _ => exec_drw_twice

/-- Only FB_EDGE_POLICY = clip clips a pixel away (R172). -/
theorem edge_of_placePixel_clipped {edge : FbEdgePolicy} {px py : Nat} (h : placePixel edge px py = .clipped) :
    edge = .clip := by
  unfold placePixel at h
  split at h
  case isTrue => cases h
  case isFalse =>
    cases edge with
    | clip => rfl
    | fault | wrap => cases h

/-- Where nothing is clipped away, every set bit of a drawable sprite falls on a cell. -/
theorem State.drawable.covers_of_spriteBit {s : State} {cx cy n r c : Nat} (hd : s.drawable cx cy n)
    (hclip : s.cfg.fbEdge ≠ .clip) (hr : r < n) (hc : c < 8) (hbit : s.spriteBit r c = true) :
    ∃ k, s.covers cx cy n k := by
  cases hp : placePixel s.cfg.fbEdge (cx + c) (cy + r) with
  | cell k => exact ⟨k, r, hr, c, hc, hbit, hp⟩
  | outside => exact absurd hp ((hd r hr).2 c hc hbit)
  | clipped => exact absurd (edge_of_placePixel_clipped hp) hclip

/-- Settles O56: no covered cell is set before the first draw, and every one before the second; the sprite covers a cell
iff it has a set bit. -/
theorem secondDrawOverClearCellsCollides : Obligations.SecondDrawOverClearCellsCollides := by
  unfold Obligations.SecondDrawOverClearCellsCollides
  intro x y n s t hd hclip hzero h hx hy
  obtain ⟨-, -, -, -, hclear⟩ := drawn_of_exec_drw hd h
  obtain ⟨u, hu, hrestored, hset', hclear'⟩ := exec_drw_twice hd h hx hy
  refine ⟨hclear fun k hk => by rw [hzero k hk]; decide, u, hu, hrestored, ?collision, ?noCollision⟩
  case collision =>
    rintro ⟨r, hr, c, hc, hbit⟩
    obtain ⟨k, hk⟩ := hd.covers_of_spriteBit hclip hr hc hbit
    exact hset' ⟨k, hk, hzero k hk⟩
  case noCollision =>
    intro hnone
    refine hclear' ?_
    rintro k ⟨r, hr, c, hc, hbit, -⟩
    rw [hnone r hr c hc] at hbit
    cases hbit

end Sys2Proof.Machine
end

section
/-! PROOFS. What the host supplies (R45): the random byte of a step, the keys and an empty image. -/

namespace Sys2Proof.Machine

/-! ## The operations beside the queue of random bytes -/

theorem State.pop_supplyRnd {s u : State} {w : Word} (b : Byte) (h : s.pop = some (w, u)) :
    (s.supplyRnd b).pop = some (w, u.supplyRnd b) := by
  obtain ⟨hs, rfl, rfl⟩ := State.pop_cases h
  exact dif_pos hs

theorem State.push_supplyRnd {s u : State} {w : Word} (b : Byte) (h : s.push w = some u) :
    (s.supplyRnd b).push w = some (u.supplyRnd b) := by
  obtain ⟨hs, rfl⟩ := State.push_cases h
  exact dif_pos hs

theorem State.storeBytes_supplyRnd (s : State) (b : Byte) (a : Nat) (bs : List Byte) :
    (s.supplyRnd b).storeBytes a bs = (s.storeBytes a bs).supplyRnd b := by
  induction bs generalizing s a with
  | nil => rfl
  | cons c bs ih => exact ih (s.memWrite a c) (a + 1)

theorem State.loadRegs_supplyRnd (s : State) (b : Byte) (n : Nat) :
    (s.supplyRnd b).loadRegs n = (s.loadRegs n).supplyRnd b := by
  induction n with
  | zero => rfl
  | succ n ih => rw [State.loadRegs, ih]; rfl

theorem State.drawRows_supplyRnd (s : State) (b : Byte) (cx cy : Nat) (rs : List Nat) (acc : Framebuffer × Bool) :
    (s.supplyRnd b).drawRows cx cy rs acc = s.drawRows cx cy rs acc := by
  induction rs generalizing acc with
  | nil => rfl
  | cons r rs ih =>
    simp only [State.drawRows, ih]
    rfl

theorem State.skipIf_supplyRnd (s : State) (b : Byte) (c : Bool) :
    (s.supplyRnd b).skipIf c = (s.skipIf c).supplyRnd b := by
  cases c <;> rfl

theorem State.timerTick_supplyRnd (s : State) (b : Byte) : (s.supplyRnd b).timerTick = s.timerTick.supplyRnd b := by
  unfold State.timerTick
  rw [show (s.supplyRnd b).ticksInStep = s.ticksInStep from rfl]
  split <;> rfl

theorem checkedAccess_supplyRnd {w : Word} {n : Nat} {s done done' t : State} (b : Byte)
    (hd : done' = done.supplyRnd b) (h : checkedAccess w n s done = .next t) :
    checkedAccess w n (s.supplyRnd b) done' = .next (t.supplyRnd b) := by
  have hfirst : (s.supplyRnd b).firstOutOfBounds ((s.supplyRnd b).addresses n) =
      s.firstOutOfBounds (s.addresses n) := rfl
  unfold checkedAccess
  obtain ⟨a, ha, rfl⟩ | ⟨hn, rfl⟩ := checkedAccess_cases h
  · rw [hfirst, ha]
    rfl
  · rw [hfirst, hn, hd]

theorem checkedKey_supplyRnd {w : Word} {x : Nibble} {s done done' t : State} (b : Byte)
    (hd : done' = done.supplyRnd b) (h : checkedKey w x s done = .next t) :
    checkedKey w x (s.supplyRnd b) done' = .next (t.supplyRnd b) := by
  obtain ⟨hk, rfl⟩ | ⟨hk, rfl⟩ := checkedKey_cases h
  · exact checkedKey_of_gt (s := s.supplyRnd b) hk
  · rw [checkedKey_of_le (s := s.supplyRnd b) hk, hd]

/-! ## Only RND reads the queue -/

/-- An instruction other than RND leaves the same state whatever the queue holds, and leaves the queue. -/
theorem exec_supplyRnd {i : Instr} {s t : State} (b : Byte) (hi : ∀ x nn, i ≠ .rnd x nn) (h : exec i s = .next t) :
    exec i (s.supplyRnd b) = .next (t.supplyRnd b) := by
  cases i with
  | rnd x nn => exact absurd rfl (hi x nn)
  | ret ign =>
    cases hp : s.pop with
    | none =>
      have hsp := State.pop_none.1 hp
      rw [exec_ret_of_empty ign hsp] at h
      cases h
      exact exec_ret_of_empty (s := s.supplyRnd b) ign hsp
    | some p =>
      rw [exec_ret_of_pop ign hp] at h
      cases h
      exact exec_ret_of_pop ign (State.pop_supplyRnd b hp)
  | call nnn =>
    cases hp : s.push s.pc with
    | none =>
      have hsp := State.push_none.1 hp
      rw [exec_call_of_full nnn hsp] at h
      cases h
      exact exec_call_of_full (s := s.supplyRnd b) nnn hsp
    | some u =>
      rw [exec_call_of_push nnn hp] at h
      cases h
      exact exec_call_of_push nnn (State.push_supplyRnd b hp)
  | drw x y n =>
    cases hd : s.drawRows (s.reg x).toNat (s.reg y).toNat (List.range n.val) (s.fb, false) with
    | error info =>
      rw [exec_drw_of_error hd] at h
      cases h
      exact exec_drw_of_error ((s.drawRows_supplyRnd b _ _ _ _).trans hd)
    | ok acc =>
      rw [exec_drw_of_ok hd] at h
      cases h
      exact exec_drw_of_ok ((s.drawRows_supplyRnd b _ _ _ _).trans hd)
  | ldVxK x =>
    cases hk : s.firstKey with
    | none =>
      rw [exec_ldVxK_of_none hk] at h
      cases h
      exact exec_ldVxK_of_none (s := s.supplyRnd b) hk
    | some k =>
      rw [exec_ldVxK_of_some hk] at h
      cases h
      exact exec_ldVxK_of_some (s := s.supplyRnd b) hk
  | ldB | ldMemVx =>
    exact checkedAccess_supplyRnd b (congrArg State.nextInstr (s.storeBytes_supplyRnd b _ _)) h
  | ldVxMem x => exact checkedAccess_supplyRnd b (congrArg State.nextInstr (s.loadRegs_supplyRnd b _)) h
  | skp | sknp => exact checkedKey_supplyRnd b (s.skipIf_supplyRnd b _) h
  | seImm | sneImm | seReg | sneReg =>
    cases h
    exact congrArg Host.Outcome.next (s.skipIf_supplyRnd b _)
  | _ => cases h; rfl

theorem State.fetch_supplyRnd (s : State) (b : Byte) :
    (s.supplyRnd b).fetch = s.fetch.mapError (State.supplyRnd · b) := by
  cases hb : s.outOfBounds (s.pc.toNat + 1) with
  | true =>
    rw [State.fetch_of_outOfBounds hb, State.fetch_of_outOfBounds (s := s.supplyRnd b) hb]
    rfl
  | false =>
    rw [State.fetch_of_inBounds hb, State.fetch_of_inBounds (s := s.supplyRnd b) hb]
    rfl

theorem State.decodeWord_supplyRnd (s : State) (b : Byte) (w : Word) :
    (s.supplyRnd b).decodeWord w = (s.decodeWord w).mapError (State.supplyRnd · b) := by
  unfold State.decodeWord
  rw [show (s.supplyRnd b).cfg = s.cfg from rfl]
  cases decode s.cfg.strictDecode w <;> rfl

/-- Fetching and decoding give the same instruction, or the same error, whatever the queue holds. -/
theorem State.fetchDecode_supplyRnd (s : State) (b : Byte) :
    (s.supplyRnd b).fetchDecode = s.fetchDecode.mapError (State.supplyRnd · b) := by
  unfold State.fetchDecode
  rw [State.fetch_supplyRnd]
  cases s.fetch with
  | ok w => exact s.decodeWord_supplyRnd b w
  | error t => rfl

/-- A step that does not run RND is the same step whatever the queue holds. -/
theorem step_supplyRnd {s t : State} (b : Byte) (hd : ∀ x nn, s.fetchDecode ≠ .ok (.rnd x nn)) (h : step s = .next t) :
    step (s.supplyRnd b) = .next (t.supplyRnd b) := by
  cases hr : s.run with
  | halted =>
    rw [step_of_halted hr] at h
    cases h
    exact step_of_halted (s := s.supplyRnd b) hr
  | running =>
    obtain ⟨u, hu⟩ := stepBody_next s
    rw [step_of_stepBody hr hu] at h
    cases h
    rw [← State.timerTick_supplyRnd]
    refine step_of_stepBody (s := s.supplyRnd b) hr ?_
    unfold stepBody at hu ⊢
    rw [State.fetchDecode_supplyRnd]
    cases hi : s.fetchDecode with
    | error e =>
      rw [hi] at hu
      cases hu
      rfl
    | ok i =>
      rw [hi] at hu
      exact exec_supplyRnd b (fun x nn hx => hd x nn (hx ▸ hi)) hu

/-- The state a host step that does not run RND leaves: the byte it supplied is dropped. -/
theorem hostStep_of_step {s t : State} (b : Byte) (hd : ∀ x nn, s.fetchDecode ≠ .ok (.rnd x nn))
    (h : step s = .next t) : hostStep s b = { t with rndIn := s.rndIn, rndDraws := s.rndDraws } := by
  rw [hostStep, step_supplyRnd b hd h]
  rfl

@[simp] theorem State.reg_timerTick (s : State) (x : Nibble) : s.timerTick.reg x = s.reg x := by
  unfold State.timerTick
  split <;> rfl

/-- A host step that runs RND takes the supplied byte. -/
theorem reg_hostStep_of_rnd {s : State} {x : Nibble} {nn : Byte} (b : Byte) (hr : s.run = .running)
    (hd : s.fetchDecode = .ok (.rnd x nn)) : (hostStep s b).reg x = b &&& nn := by
  obtain ⟨t, ht, hreg, -⟩ := randomAndMasksRandomByte x nn b s
  have hd' : (s.supplyRnd b).fetchDecode = .ok (.rnd x nn) := by rw [State.fetchDecode_supplyRnd, hd]; rfl
  have hstep : step (s.supplyRnd b) = .next t.timerTick := by
    rw [step_of_fetchDecode (s := s.supplyRnd b) hr hd', ht]
    rfl
  rw [hostStep, hstep]
  exact (t.reg_timerTick x).trans hreg

/-- Settles O46: RND masks the supplied byte, and no other step reads it. -/
theorem onlyRandomAndReadsRandomByte : Obligations.OnlyRandomAndReadsRandomByte := by
  unfold Obligations.OnlyRandomAndReadsRandomByte
  refine fun s => ⟨fun x nn b hr hd => reg_hostStep_of_rnd b hr hd, fun hd b b' => ?_⟩
  obtain ⟨t, ht⟩ := step_next s
  rw [hostStep_of_step b hd ht, hostStep_of_step b' hd ht]

/-- Settles O45: the queue decides whether the draw takes a supplied byte or the free value. -/
theorem randomDrawTakesOneByte : Obligations.RandomDrawTakesOneByte := by
  unfold Obligations.RandomDrawTakesOneByte
  intro x nn s
  have hreg : (s.takeRnd.setReg x (s.rnd &&& nn)).nextInstr.reg x = s.rnd &&& nn := State.reg_setReg_same _ x _
  refine ⟨_, rfl, fun b bs hq => ?supplied, fun hq => ?free⟩
  case supplied => rw [hreg]; simp [State.rnd, State.takeRnd, hq]
  case free => rw [hreg]; simp [State.rnd, State.takeRnd, hq]

/-! ## The keys and the empty image -/

/-- A transition that sets the key table alone. -/
theorem State.frame_of_key (s : State) (key : Vector Bool 16) : s.frame [.key] { s with key := key } := by
  intro e he
  cases e with
  | key => simp at he
  | mem | v | fb => exact fun _ => rfl
  | own => exact ⟨rfl, rfl, rfl⟩
  | _ => rfl

/-- Settles O55: key j is bit j of the word, and no other element is written. -/
theorem setKeysWritesOnlyKeys : Obligations.SetKeysWritesOnlyKeys := by
  unfold Obligations.SetKeysWritesOnlyKeys
  exact fun s k => ⟨fun j => by simp, s.frame_of_key _⟩

/-- The cleared memory is zero beyond the font (R44). -/
theorem State.memRead_clear_of_le (s : State) {a : Nat} (h : 80 ≤ a % 4096) : s.clear.memRead a = 0 := by
  rw [State.memRead_clear, Memory.background, dif_neg (Nat.not_lt.2 h)]

/-- The word fetched after a reset with an empty image is 0x0000 (R234). -/
theorem State.fetch_clear (s : State) : s.clear.fetch = .ok 0x0000 := by
  have hb : s.clear.outOfBounds (s.clear.pc.toNat + 1) = false :=
    State.outOfBounds_eq_false.2 fun _ => by rw [State.clear_pc]; decide
  rw [State.fetch_of_inBounds hb, State.clear_pc, s.memRead_clear_of_le (by decide), s.memRead_clear_of_le (by decide)]
  rfl

/-- Settles O54: the cleared state fetches 0x0000, which no row of the map selects. -/
theorem emptyImageRaisesUnsupported : Obligations.EmptyImageRaisesUnsupported := by
  unfold Obligations.EmptyImageRaisesUnsupported
  intro s
  rw [s.resetWith_nil]
  have hrefused : ∃ e, decode s.clear.cfg.strictDecode 0x0000 = .error e := by
    cases s.clear.cfg.strictDecode <;> exact ⟨_, rfl⟩
  obtain ⟨e, he⟩ := hrefused
  exact ⟨rfl, rfl, step_of_decode_error rfl s.fetch_clear he⟩

end Sys2Proof.Machine
end
